-- ==== Sys2Proof/Word.lean ====
section
/-!
DEFINITION. The two word types: an 8-bit byte of a buffer (00_scope.md R9) and a 32-bit register or
command word (00_scope.md R7, `REG_W`).
-/

namespace Sys2Proof

/-- A byte of IBUF or RBUF, `b[7:0]` with bit 7 the most significant (R9). -/
abbrev Byte := BitVec 8

/-- A register or a command word: 32 bits (R7 `REG_W`, R57). -/
abbrev Word := BitVec 32

end Sys2Proof
end

