-- ==== Sys2Proof/Config.lean ====
section
/-!
DEFINITION. What is fixed for one machine: the implementation parameters of 00_scope.md R7 and the
free value the spec leaves open (20_memory.md R52, 93_implementation_defined.md U1, U2).
-/

namespace Sys2Proof

/-- The two byte buffers (10_state.md R30). -/
inductive Buffer where
  | ibuf   -- the input Annex-B byte stream
  | rbuf   -- the cursor buffer
  deriving DecidableEq, Repr

/-- The parameters 00_scope.md R7 marks OPEN: an argument of the model. No step changes them.
DESIGN CHOICE (log 1): State carries them as a constant field, so that a claim about every state is a
claim about every value of them; safe. -/
structure Params where
  /-- `IBUF_SIZE`, the capacity of IBUF in bytes. -/
  ibufSize : Nat
  /-- `RBUF_SIZE`, the capacity of RBUF in bytes. -/
  rbufSize : Nat
  /-- `BLOCK_BASE`, the host address of the register window. -/
  blockBase : Nat
  deriving DecidableEq, Repr

/-- The capacity of a buffer in bytes (R7). -/
def Params.size (p : Params) : Buffer → Nat
  | .ibuf => p.ibufSize
  | .rbuf => p.rbufSize

/-- The ranges R7 gives the OPEN parameters: `1 ≤ IBUF_SIZE, RBUF_SIZE ≤ 2^24`. No relation between the
two sizes is assumed (R8). -/
abbrev Params.Ok (p : Params) : Prop :=
  (1 ≤ p.ibufSize ∧ p.ibufSize ≤ 2 ^ 24) ∧ (1 ≤ p.rbufSize ∧ p.rbufSize ≤ 2 ^ 24)

/-- `RDBITS_MIN`, the least legal bit count of a fixed-width read (R7). -/
def Config.rdbitsMin : Nat := 1

/-- `RDBITS_MAX`, the largest legal bit count of a fixed-width read (R7). -/
def Config.rdbitsMax : Nat := 32

/-- `UE_MAX_LZ`, the largest admitted Exp-Golomb prefix length (R7). -/
def Config.ueMaxLz : Nat := 31

/-- The largest value of DEFICIT, where it saturates (10_state.md R27). -/
def Config.deficitMax : Nat := 2 ^ 32 - 1

/-- The initial `lastScale` and `nextScale` of a scaling list (41_expgolomb.md R82). -/
def Config.initialScale : Int := 8

/-- The parameters of `State.reset`. DESIGN CHOICE (log 1): R7 leaves them OPEN; the largest sizes R7
admits and base 0. Unsafe for a claim about `State.reset` itself; no statement rests on these values. -/
def Config.resetParams : Params := { ibufSize := 2 ^ 24, rbufSize := 2 ^ 24, blockBase := 0 }

/-- FREE VALUE (log 7): the byte a host read returns where the spec says "any value": a byte of IBUF or
RBUF nothing has written (U1), and an RBUF byte while an EXTRACT is pending (R52, U2). Its arguments
are the state's counter `draws`, the buffer and the index. It has no body: nothing constrains it.
DESIGN CHOICE (log 20): no argument names the engine instance, so two instances whose counters are equal draw
the same byte for the same buffer and index; unsafe for a claim that compares unspecified bytes of two
instances. -/
opaque Config.drawByte : Nat → Buffer → Nat → Byte

end Sys2Proof
end

