-- ==== Sys2Proof/Syntax.lean ====
section
/-!
DEFINITION. The commands of the engine: one constructor for each row of spec/opcode_table.json
(30_encoding.md R60), and the reasons for which a command word is refused (R61).
-/

namespace Sys2Proof

/-- The scaling-list length that field `S` selects (30_encoding.md R59). -/
inductive ListSize where
  | sixteen     -- S = 0
  | sixtyFour   -- S = 1
  deriving DecidableEq, Repr

/-- The number of entries of a scaling list: `SIZE = 16` or `SIZE = 64` (R59). -/
def ListSize.entries : ListSize → Nat
  | .sixteen => 16
  | .sixtyFour => 64

/-- The commands (30_encoding.md R60). Register operands (LARG0, LARG1, LILEN) are in the latch, not in
the word (R59). -/
inductive Instr where
  | cinit                       -- start a cursor over RBUF[0 .. LARG0), R77
  | rdbits (n : Nat)            -- read n bits, R78
  | rdue                        -- read an unsigned Exp-Golomb value, R83
  | rdse                        -- read a signed Exp-Golomb value, R84
  | skipsl (size : ListSize)    -- skip a scaling list, R85
  | findsc                      -- find a start code in IBUF, R89
  | extract                     -- de-escape a NAL unit of IBUF into RBUF, R91
  deriving DecidableEq, Repr

/-- The reasons `raise ILL(reason)` names (30_encoding.md R61, 60_exceptions.md R96). -/
inductive IllReason where
  | opcode     -- OP is not 0x1 to 0x7
  | reserved   -- a reserved bit of the format is not zero
  | count      -- RDBITS with a count outside 1 to 32
  | range      -- an operand register outside its range
  deriving DecidableEq, Repr

end Sys2Proof
end

