-- ==== Sys2Proof/WellFormed.lean ====
section
/-!
DEFINITION. Which terms of `Instr` are commands of the engine: the bit count of RDBITS lies in 1 to 32
(30_encoding.md R59, R62). No other command has a field that can be out of range.
-/

namespace Sys2Proof

/-- The check of a command's own field: `1 ≤ N ≤ 32` for RDBITS (R59). DEDUCED (log 13): the decoder refuses
the counts 0 and 33 to 63, which the row's mask admits, since R61 and R62 make them illegal words; safe. -/
def Instr.wellFormed : Instr → Bool
  | .cinit => true
  | .rdbits n => decide (Config.rdbitsMin ≤ n) && decide (n ≤ Config.rdbitsMax)
  | .rdue => true
  | .rdse => true
  | .skipsl _ => true
  | .findsc => true
  | .extract => true

/-- A command whose fields are legal. -/
abbrev Instr.WellFormed (i : Instr) : Prop := i.wellFormed = true

end Sys2Proof
end

