-- ==== Sys2Proof/Decode.lean ====
section
/-!
DEFINITION. The command word's decoder, total on every 32-bit word and rejecting by name, and after it
the encoder (30_encoding.md R57 to R62). A command is one 32-bit word written whole (R57), so there are
no bytes to order.
-/

namespace Sys2Proof

/-- `OP = w[31:28]` (R57). -/
def opField (w : Word) : Nat := (w.extractLsb' 28 4).toNat

/-- `N = w[5:0]`, zero-extended (R59). -/
def countField (w : Word) : Nat := (w.extractLsb' 0 6).toNat

/-- `S = w[0]` (R59): the list length it selects. -/
def sizeField (w : Word) : ListSize :=
  if (w.extractLsb' 0 1).toNat = 0 then .sixteen else .sixtyFour

/-- The reserved bits `w[27:0]` of format N are zero (R58). -/
def reservedZeroN (w : Word) : Bool := (w.extractLsb' 0 28).toNat == 0

/-- The reserved bits `w[27:6]` of format B are zero (R58). -/
def reservedZeroB (w : Word) : Bool := (w.extractLsb' 6 22).toNat == 0

/-- The reserved bits `w[27:1]` of format S are zero (R58). -/
def reservedZeroS (w : Word) : Bool := (w.extractLsb' 1 27).toNat == 0

/-- A word of format N: the command `i`, or RESERVED (R61). -/
def decodeN (w : Word) (i : Instr) : Except IllReason Instr :=
  if reservedZeroN w then .ok i else .error .reserved

/-- A word of format B: RESERVED is checked before COUNT (R61). -/
def decodeB (w : Word) : Except IllReason Instr :=
  if reservedZeroB w then
    if (Instr.rdbits (countField w)).wellFormed then .ok (.rdbits (countField w))
    else .error .count
  else .error .reserved

/-- A word of format S (R58, R61). -/
def decodeS (w : Word) : Except IllReason Instr :=
  if reservedZeroS w then .ok (.skipsl (sizeField w)) else .error .reserved

/-- The decoder: R60's opcode map with the checks OPCODE, RESERVED, COUNT in R61's order. -/
def decode (w : Word) : Except IllReason Instr :=
  match opField w with
  | 1 => decodeN w .cinit
  | 2 => decodeB w
  | 3 => decodeN w .rdue
  | 4 => decodeN w .rdse
  | 5 => decodeS w
  | 6 => decodeN w .findsc
  | 7 => decodeN w .extract
  | _ => .error .opcode

/-- The instruction the decoder reads from a word of `nbits` bits, the bits above them zero. A command is
one 32-bit word (R57), so a longer one is no command. -/
def decodeTableWord (nbits w : Nat) : Option Instr :=
  if nbits ≤ 32 then (decode (BitVec.ofNat 32 (w % 2 ^ nbits))).toOption else none

/-- The bits of field `S` (R59). -/
def sizeBits : ListSize → Word
  | .sixteen => 0#32
  | .sixtyFour => 1#32

/-- The encoder: the word of each command (R60, R58). -/
def encode : Instr → Word
  | .cinit => 0x10000000#32
  | .rdbits n => 0x20000000#32 ||| BitVec.ofNat 32 n
  | .rdue => 0x30000000#32
  | .rdse => 0x40000000#32
  | .skipsl size => 0x50000000#32 ||| sizeBits size
  | .findsc => 0x60000000#32
  | .extract => 0x70000000#32

end Sys2Proof
end

