-- ==== Sys2Proof/Machine/State.lean ====
section
/-!
DEFINITION. The state of the engine and of its surroundings, as plain data (10_state.md R16): the
registers (R19), the buffers with their written-marks (R30, R32), the command latch (R31), and the
model's own fields, which say what the host does and which agent moves next (20_memory.md R47, R50).
-/

namespace Sys2Proof.Machine

/-- A byte buffer: the written bytes as (index, byte) pairs, indices strictly rising. A byte is listed
exactly when its written-mark is true (10_state.md R32); an unlisted byte has no value. -/
abbrev Memory := List Host.Cell

/-- The registers of the host window (10_state.md R19) and the reserved offsets (20_memory.md R38). -/
inductive Reg where
  | cmd | status | result | arg0 | arg1 | ilen | rlen | bitpos | deficit | scpos | nalhdr
  | reserved
  deriving DecidableEq, Repr

/-- One access of the host's bus: a byte address, a width in bits, and for a write the value driven
(20_memory.md R37, R42). DESIGN CHOICE (log 14): an 8-bit write takes the low 8 bits of `v`; safe. -/
inductive BusAccess where
  | read (addr bits : Nat)
  | write (addr bits : Nat) (v : Word)
  deriving DecidableEq, Repr

/-- What the host does next: one bus access, or `WAIT`, which repeats a read of STATUS until BUSY reads 0
(30_encoding.md R70). -/
inductive HostOp where
  | access (a : BusAccess)
  | wait
  deriving DecidableEq, Repr

/-- Who moves (00_scope.md R6, 70_reset_and_hazards.md R109). -/
inductive Turn where
  | host
  | engine
  | reset
  deriving DecidableEq, Repr

/-- What a host read returned (20_memory.md R47). -/
inductive Reply where
  | word (r : Reg) (v : Word)
  | byte (b : Buffer) (a : Nat) (v : Byte)
  deriving DecidableEq, Repr

/-- The model's faults. The first three are the model faults of 60_exceptions.md R100: the hardware goes
on with a value or an effect the spec does not give, so stopping is safe. DEDUCED (log 6): R100's fault set is
the outcome that ends the run. DESIGN CHOICE (log 18): UNINIT names the byte; safe. -/
inductive Fault where
  /-- UNINIT: the engine read byte `a` of buffer `b`, whose written-mark is false (R32, R100). Raised by
  RDBITS, RDUE, RDSE, SKIPSL, FINDSC and EXTRACT. Safe. -/
  | uninit (b : Buffer) (a : Nat)
  /-- HAZARD: the host wrote an IBUF or RBUF byte while BUSY = 1 (20_memory.md R53). Safe. -/
  | hazard
  /-- HOSTERR: a host access of a width, alignment or address R37 does not admit (20_memory.md R42). Safe. -/
  | hosterr
  /-- The engine's turn with a latched word or operands that fail `Legal`. DEDUCED (log 5): R48 and R49
  rule such a state out, so no run from reset reaches it. Safe. -/
  | illegalLatch
  deriving DecidableEq, Repr

/-- The reasons a step gives no meaning. -/
inductive Refusal where
  /-- The instruction of this mnemonic has no meaning in the model yet. No arm of `exec` answers it. Safe. -/
  | notModelled (mnemonic : String)
  deriving DecidableEq, Repr

/-- The state (10_state.md R16). -/
structure State where
  /-- RESULT, offset 0x08 (R19, R22). -/
  result : Word
  /-- ARG0, offset 0x0C (R19, R23). -/
  arg0 : Word
  /-- ARG1, offset 0x10 (R19, R23). -/
  arg1 : Word
  /-- ILEN, offset 0x14 (R19, R24). -/
  ilen : Word
  /-- RLEN, offset 0x18 (R19, R25). -/
  rlen : Word
  /-- BITPOS, offset 0x1C (R19, R26). -/
  bitpos : Word
  /-- DEFICIT, offset 0x20 (R19, R27). -/
  deficit : Word
  /-- SCPOS, offset 0x24 (R19, R28). -/
  scpos : Word
  /-- NALHDR, offset 0x28 (R19, R29). -/
  nalhdr : Word
  /-- STATUS bit 1, TRUNC (R21). -/
  trunc : Bool
  /-- STATUS bit 2, MALF (R21). -/
  malf : Bool
  /-- STATUS bit 3, NOSC (R21). -/
  nosc : Bool
  /-- STATUS bit 4, ILL (R21). -/
  ill : Bool
  /-- STATUS bit 5, OVR (R21). -/
  ovr : Bool
  /-- PENDING, which the host sees as STATUS bit 0, BUSY (R31, R21). -/
  pending : Bool
  /-- LCMD, the latched command word (R31). -/
  lcmd : Word
  /-- LARG0, ARG0 at issue (R31). -/
  larg0 : Word
  /-- LARG1, ARG1 at issue (R31). -/
  larg1 : Word
  /-- LILEN, ILEN at issue, 25 bits (R31). DEDUCED (log 12): `IBUF_SIZE ≤ 2^24` fits them; safe. -/
  lilen : BitVec 25
  /-- IBUF and its written-marks IW (R30, R32). -/
  ibuf : Memory
  /-- RBUF and its written-marks RW (R30, R32). -/
  rbuf : Memory
  /-- The reason of the last ILL, which "the model records" (60_exceptions.md R96). No register shows it.
  DESIGN CHOICE (log 10): it stays when ILL is cleared, and reset leaves none; safe. -/
  illReason : Option IllReason
  /-- The model's own: the OPEN parameters, constant (00_scope.md R7, log 1). -/
  params : Params
  /-- The model's own: the steps the host has still to take, oldest first (20_memory.md R47, log 3). -/
  host : List HostOp
  /-- The model's own: which agent moves next, next first (20_memory.md R50, log 2). -/
  turns : List Turn
  /-- The model's own: what the host's reads returned, newest first (20_memory.md R47, log 3). -/
  replies : List Reply
  /-- The model's own: the counter of the free value `Config.drawByte` (log 7). -/
  draws : Nat
  deriving DecidableEq, Repr

/-- Reset of an engine of the given parameters: every register and the latch 0, every written-mark false
(70_reset_and_hazards.md R107, R108). The model's own fields are empty: nothing is placed in the host's
list, and the engine waits for a CMD write (R109). -/
def State.resetWith (p : Params) : State :=
  { result := 0, arg0 := 0, arg1 := 0, ilen := 0, rlen := 0, bitpos := 0, deficit := 0, scpos := 0,
    nalhdr := 0, trunc := false, malf := false, nosc := false, ill := false, ovr := false,
    pending := false, lcmd := 0, larg0 := 0, larg1 := 0, lilen := 0, ibuf := [], rbuf := [],
    illReason := none, params := p, host := [], turns := [], replies := [], draws := 0 }

/-- The machine right after reset (R107, R108), with the parameters of log 1. -/
def State.reset : State := State.resetWith Config.resetParams

end Sys2Proof.Machine
end

