-- ==== Sys2Proof/Machine/Flags.lean ====
section
/-!
DEFINITION. The flags of STATUS (10_state.md R21, 60_exceptions.md R95 to R103): the word the host reads,
each event that sets or clears a flag, and the kind of result a host reads from them (R99).
-/

namespace Sys2Proof.Machine

/-- A flag at its bit of the word. -/
def flagBit (f : Bool) (i : Nat) : Word := if f then BitVec.ofNat 32 (2 ^ i) else 0#32

/-- STATUS as the host reads it (R21): BUSY 0, TRUNC 1, MALF 2, NOSC 3, ILL 4, OVR 5; bits 31:6 read 0.
DEDUCED (log 11): a view of the six flags, which are its only storage; safe. -/
def State.statusWord (s : State) : Word :=
  flagBit s.pending 0 ||| flagBit s.trunc 1 ||| flagBit s.malf 2 ||| flagBit s.nosc 3
    ||| flagBit s.ill 4 ||| flagBit s.ovr 5

/-- A host write of `v` to STATUS: clears ILL if `v[4] = 1` and OVR if `v[5] = 1`, and nothing else (R21). -/
def State.statusWrite (s : State) (v : Word) : State :=
  { s with ill := s.ill && !v.getLsbD 4, ovr := s.ovr && !v.getLsbD 5 }

/-- DEFICIT + 1, saturating at `2^32 - 1` (10_state.md R27). -/
def deficitSucc (d : Word) : Word := BitVec.ofNat 32 (min (d.toNat + 1) Config.deficitMax)

/-- A bit read at or past the end of the cursor buffer: `flag TRUNC` and one more in DEFICIT; BITPOS stays
(40_bitreader.md R74). -/
def State.pastEnd (s : State) : State := { s with trunc := true, deficit := deficitSucc s.deficit }

/-- `flag MALF` (41_expgolomb.md R80, 60_exceptions.md R97). -/
def State.flagMalf (s : State) : State := { s with malf := true }

/-- The error shared by every refused command word, `raise ILL(reason)`: it sets STATUS.ILL and does nothing
else; the reason is the model's record (60_exceptions.md R96). The engine has no trap: this, OVR and the
flags are all its exceptions (R102). -/
def State.raiseIll (s : State) (r : IllReason) : State := { s with ill := true, illReason := some r }

/-- A CMD write while BUSY = 1: sets STATUS.OVR and does nothing else (20_memory.md R48). -/
def State.raiseOvr (s : State) : State := { s with ovr := true }

/-- The result kinds a host reads from the flags (60_exceptions.md R99). -/
inductive Verdict where
  | malformedCode
  | truncatedInput (unread : Nat)
  | badStartCode
  | success
  deriving DecidableEq, Repr

/-- The host's classification of a decode pass: MalformedCode if MALF = 1, else TruncatedInput with DEFICIT
if TRUNC = 1, else success (R99). -/
def State.verdict (s : State) : Verdict :=
  if s.malf then .malformedCode
  else if s.trunc then .truncatedInput s.deficit.toNat
  else .success

/-- The host's classification of a completed FINDSC: BadStartCode if NOSC = 1 where the host required a start
code (R99). Whether it was required is the host's to know (42_nal.md R89); none means no error. -/
def State.searchVerdict (s : State) (required : Bool) : Option Verdict :=
  if required && s.nosc then some .badStartCode else none

end Sys2Proof.Machine
end

