-- ==== Sys2Proof/Machine/Memory.lean ====
section
/-!
DEFINITION. The byte buffers (10_state.md R30, R32; 20_memory.md R42): reading one byte, writing one
byte, and the one canonical form a buffer is kept in. There is no wider access.
-/

namespace Sys2Proof.Machine

/-- The canonical form: indices strictly rising. An unlisted byte reads as no value, so no entry can
equal it. -/
abbrev Memory.wf (m : Memory) : Prop := m.Pairwise (fun c d => c.1 < d.1)

/-- Every written index lies below the buffer's capacity (R30). -/
abbrev Memory.Within (m : Memory) (size : Nat) : Prop := ∀ c ∈ m, c.1 < size

/-- The byte at index `a`, or none where the written-mark is false (R32). DEDUCED (log 8): a byte is listed
exactly when its mark is true, so the marks need no storage of their own; safe. -/
def Memory.read : Memory → Nat → Option Byte
  | [], _ => none
  | (k, b) :: m, a => if a = k then some b else Memory.read m a

/-- Store `v` at index `a` and set its written-mark (R32), keeping the canonical form. -/
def Memory.write : Memory → Nat → Byte → Memory
  | [], a, v => [(a, v)]
  | (k, b) :: m, a, v =>
    if a < k then (a, v) :: (k, b) :: m
    else if a = k then (a, v) :: m
    else (k, b) :: Memory.write m a v

/-- A buffer of the state (R30). -/
def State.buffer (s : State) : Buffer → Memory
  | .ibuf => s.ibuf
  | .rbuf => s.rbuf

/-- Store a byte in a buffer; the other buffer is unchanged, since the two are disjoint (R30). -/
def State.writeByte (s : State) (b : Buffer) (a : Nat) (v : Byte) : State :=
  match b with
  | .ibuf => { s with ibuf := s.ibuf.write a v }
  | .rbuf => { s with rbuf := s.rbuf.write a v }

/-- An engine read of one byte of buffer `b` with contents `m`: UNINIT where nothing has written it
(R32, 60_exceptions.md R100). -/
def engineRead (b : Buffer) (m : Memory) (a : Nat) : Except Fault Byte :=
  match m.read a with
  | some v => .ok v
  | none => .error (.uninit b a)

end Sys2Proof.Machine
end

