-- ==== Sys2Proof/Machine/Operands.lean ====
section
/-!
DEFINITION. The operand forms: the latched registers as numbers (30_encoding.md R59), the stream bits of
the cursor buffer (00_scope.md R10, 40_bitreader.md R73), and the two result formats (00_scope.md R11).
-/

namespace Sys2Proof.Machine

/-- `zext_32` (R11): the 32-bit pattern of a natural number. DESIGN CHOICE (log 17): a number of `2^32` or
more, which no reachable state gives, wraps. -/
def zext32 (n : Nat) : Word := BitVec.ofNat 32 n

/-- `twos_32` (R11): the two's-complement 32-bit pattern of an integer. -/
def twos32 (x : Int) : Word := BitVec.ofInt 32 x

/-- `sext_32` (R11): the signed value of a 32-bit pattern, as the host reads a result of RDSE (R84). -/
def sext32 (p : Word) : Int := p.toInt

/-- LARG0 as an unsigned number (R59). -/
def State.arg0Value (s : State) : Nat := s.larg0.toNat

/-- LARG1 as an unsigned number (R59). -/
def State.arg1Value (s : State) : Nat := s.larg1.toNat

/-- LILEN as an unsigned number (R59). -/
def State.ilenValue (s : State) : Nat := s.lilen.toNat

/-- The stream bit index just past the cursor buffer, `8 × RLEN` (R74). -/
def State.endBit (s : State) : Nat := 8 * s.rlen.toNat

/-- The cursor's stream bit index, BITPOS (10_state.md R26). -/
def State.cursor (s : State) : Nat := s.bitpos.toNat

/-- Bit `7 - (k mod 8)` of a byte: the byte's most significant bit comes first (R10). -/
def byteBit (v : Byte) (k : Nat) : Bool := v.getLsbD (7 - k % 8)

/-- `StreamBit(k)`: bit `k` of the cursor buffer, one byte read of RBUF (R73). -/
def State.streamBit (s : State) (k : Nat) : Except Fault Bool :=
  match engineRead .rbuf s.rbuf (k / 8) with
  | .ok v => .ok (byteBit v k)
  | .error f => .error f

end Sys2Proof.Machine
end

