-- ==== Sys2Proof/Machine/Ops.lean ====
section
/-!
DEFINITION. The shared operations: the bit cursor (40_bitreader.md R73 to R77), writing RESULT, the issue
of a command word with its error (20_memory.md R48, 30_encoding.md R61, 60_exceptions.md R96) and the
completion of a command (R49). The engine has no trap and no return from one (R102, R103): raising ILL
(`State.raiseIll`) is the one operation every refused word shares.
-/

namespace Sys2Proof.Machine

/-- A fresh cursor over `RBUF[0 .. len)`: BITPOS 0, TRUNC and MALF clear, DEFICIT 0 (R77, R91). -/
def State.initCursor (s : State) (len : Word) : State :=
  { s with rlen := len, bitpos := 0, trunc := false, malf := false, deficit := 0 }

/-- The cursor moves past one bit (R74). -/
def State.advance (s : State) : State := { s with bitpos := s.bitpos + 1 }

/-- `GetBit()` (R74): the next bit inside the buffer; past its end a 0 bit that sets TRUNC and counts in
DEFICIT. -/
def getBit (s : State) : Except Fault (Bool × State) :=
  if s.cursor < s.endBit then
    match s.streamBit s.cursor with
    | .ok b => .ok (b, s.advance)
    | .error f => .error f
  else .ok (false, s.pastEnd)

/-- The loop of `ReadBits`: `n` more bits after the value `v` read so far, most significant first (R75). -/
def readBitsFrom : Nat → Nat → State → Except Fault (Nat × State)
  | 0, v, s => .ok (v, s)
  | n + 1, v, s =>
    match getBit s with
    | .ok (b, s') => readBitsFrom n (2 * v + b.toNat) s'
    | .error f => .error f

/-- `ReadBits(n)` (R75). -/
def readBits (n : Nat) (s : State) : Except Fault (Nat × State) := readBitsFrom n 0 s

/-- A command that ends by writing RESULT with the word `f v` of its value (10_state.md R22); a model fault
ends the run (60_exceptions.md R100). -/
def writeResult {α : Type} (f : α → Word) (r : Except Fault (α × State)) :
    Host.Outcome State Fault Refusal :=
  match r with
  | .ok (v, s) => .next { s with result := f v }
  | .error e => .fault e

/-- The operand ranges of `Legal` (R61, reason RANGE), on the values at issue. -/
def inRange (p : Params) (i : Instr) (a0 a1 il : Nat) : Bool :=
  match i with
  | .cinit => decide (a0 ≤ p.rbufSize)
  | .rdbits _ => true
  | .rdue => true
  | .rdse => true
  | .skipsl _ => true
  | .findsc => decide (a0 ≤ il)
  | .extract => decide (a0 ≤ il) && decide (a1 ≤ il - a0) && decide (a1 ≤ p.rbufSize)

/-- `Legal(w, ARG0, ARG1, ILEN)` (R61): the command, or the first failing reason; OPCODE, RESERVED and COUNT
are the decoder's, RANGE comes last. -/
def legal (p : Params) (w : Word) (a0 a1 il : Nat) : Except IllReason Instr :=
  match decode w with
  | .ok i => if inRange p i a0 a1 il then .ok i else .error .range
  | .error r => .error r

/-- The latch at issue: the command word with ARG0, ARG1 and ILEN, and PENDING set (R48). -/
def State.latch (s : State) (w : Word) : State :=
  { s with lcmd := w, larg0 := s.arg0, larg1 := s.arg1, lilen := s.ilen.setWidth 25, pending := true }

/-- An issue attempt: a host write of `w` to CMD (R48; the order of the checks is R101). -/
def State.issue (s : State) (w : Word) : State :=
  if s.pending then s.raiseOvr
  else
    match legal s.params w s.arg0.toNat s.arg1.toNat s.ilen.toNat with
    | .error r => s.raiseIll r
    | .ok _ => s.latch w

/-- The command the latch holds, checked by `Legal` on the latched operands (R48, R49). -/
def State.latched (s : State) : Except IllReason Instr :=
  legal s.params s.lcmd s.arg0Value s.arg1Value s.ilenValue

/-- The free value's counter moves on: every step but a host read draws afresh (log 7). -/
def State.tick (s : State) : State := { s with draws := s.draws + 1 }

/-- The completion of a command: PENDING, and with it BUSY, is cleared (R49). -/
def State.complete (s : State) : State := { s with pending := false, draws := s.draws + 1 }

end Sys2Proof.Machine
end

