-- ==== Sys2Proof/Machine/BitReader.lean ====
section
/-!
DEFINITION. The bit-reader family: CINIT (40_bitreader.md R77) and RDBITS (R78).
-/

namespace Sys2Proof.Machine

/-- CINIT (R77): RLEN ← LARG0 and a fresh cursor; it reads no byte of RBUF. -/
def execCinit (s : State) : Host.Outcome State Fault Refusal :=
  .next (s.initCursor s.larg0)

/-- RDBITS n (R78): RESULT ← zext_32(ReadBits(n)). -/
def execRdbits (n : Nat) (s : State) : Host.Outcome State Fault Refusal :=
  writeResult zext32 (readBits n s)

end Sys2Proof.Machine
end

