-- ==== Sys2Proof/Machine/ExpGolomb.lean ====
section
/-!
DEFINITION. The Exp-Golomb family: RDUE (41_expgolomb.md R83), RDSE (R84) and SKIPSL (R85), with the
primitives DecodeUE (R80), DecodeSE (R81) and SkipScalingList (R82).
-/

namespace Sys2Proof.Machine

/-- The prefix loop of `DecodeUE` (R80) after `lz` zeros, with at most `fuel = 32 - lz` more: `some lz` when
the `1` bit was read, `none` when the code cannot be completed, with the flags set. -/
def uePrefix : Nat → Nat → State → Except Fault (Option Nat × State)
  | 0, _, s => .ok (none, s.flagMalf)
  | fuel + 1, lz, s =>
    if s.endBit ≤ s.cursor then
      .ok (none, if 1 ≤ lz then s.pastEnd.flagMalf else s.pastEnd)
    else
      match getBit s with
      | .ok (true, s') => .ok (some lz, s')
      | .ok (false, s') => uePrefix fuel (lz + 1) s'
      | .error f => .error f

/-- `DecodeUE()` (R80): the value `(1 << lz) - 1 + suffix`, or 0 where the prefix cannot be completed. -/
def decodeUE (s : State) : Except Fault (Nat × State) :=
  match uePrefix (Config.ueMaxLz + 1) 0 s with
  | .ok (some lz, s') =>
    match readBits lz s' with
    | .ok (suffix, s'') => .ok (2 ^ lz - 1 + suffix, s'')
    | .error f => .error f
  | .ok (none, s') => .ok (0, s')
  | .error f => .error f

/-- The signed value of a code number (R81, R65): `(k+1)/2` if `k` is odd, else `-(k/2)`. -/
def signedOf (k : Nat) : Int :=
  if k % 2 = 1 then ((k + 1) / 2 : Nat) else -((k / 2 : Nat) : Int)

/-- `DecodeSE()` (R81). -/
def decodeSE (s : State) : Except Fault (Int × State) :=
  match decodeUE s with
  | .ok (k, s') => .ok (signedOf k, s')
  | .error f => .error f

/-- `lastScale` after an entry: `nextScale` where it is not 0 (R82). -/
def lastAfter (last next : Int) : Int := if next ≠ 0 then next else last

/-- The loop of `SkipScalingList` (R82) with `size` entries to go: a delta is read only while `nextScale` is
not 0, and its sum is taken modulo 256 (Euclidean, R11). PRESUMED (log 15): R82 marks the algorithm as
taken from general knowledge. -/
def skipEntries : Nat → Int → Int → Nat → State → Except Fault (Nat × State)
  | 0, _, _, count, s => .ok (count, s)
  | size + 1, last, next, count, s =>
    if next ≠ 0 then
      match decodeSE s with
      | .ok (delta, s') =>
        skipEntries size (lastAfter last ((last + delta) % 256)) ((last + delta) % 256) (count + 1) s'
      | .error f => .error f
    else skipEntries size last next count s

/-- `SkipScalingList(size)` (R82): the number of deltas read. -/
def skipScalingList (size : Nat) (s : State) : Except Fault (Nat × State) :=
  skipEntries size Config.initialScale Config.initialScale 0 s

/-- RDUE (R83): RESULT ← zext_32(DecodeUE()). -/
def execRdue (s : State) : Host.Outcome State Fault Refusal :=
  writeResult zext32 (decodeUE s)

/-- RDSE (R84): RESULT ← twos_32(DecodeSE()). -/
def execRdse (s : State) : Host.Outcome State Fault Refusal :=
  writeResult twos32 (decodeSE s)

/-- SKIPSL 16 or SKIPSL 64 (R85): RESULT ← the number of deltas read. -/
def execSkipsl (size : ListSize) (s : State) : Host.Outcome State Fault Refusal :=
  writeResult zext32 (skipScalingList size.entries s)

end Sys2Proof.Machine
end

