-- ==== Sys2Proof/Machine/Nal.lean ====
section
/-!
DEFINITION. The NAL family: FINDSC (42_nal.md R88, R89) and EXTRACT (R91), which read IBUF byte by byte.
-/

namespace Sys2Proof.Machine

/-- The length of the zero run at index `p`, looking at no more than `fuel` bytes (R88). -/
def zeroRun (m : Memory) : Nat → Nat → Except Fault Nat
  | 0, _ => .ok 0
  | fuel + 1, p =>
    match engineRead .ibuf m p with
    | .ok b =>
      if b = 0x00#8 then
        match zeroRun m fuel (p + 1) with
        | .ok k => .ok (k + 1)
        | .error f => .error f
      else .ok 0
    | .error f => .error f

/-- Whether `k` zero bytes at `p` make a start code: two or more, followed by `0x01` before `il` (R88). -/
def endsStartCode (m : Memory) (il p k : Nat) : Except Fault Bool :=
  if 2 ≤ k ∧ p + k < il then
    match engineRead .ibuf m (p + k) with
    | .ok b => .ok (b == 0x01#8)
    | .error f => .error f
  else .ok false

/-- The scan of `FindStartCode` (R88) from index `p`, with `fuel` iterations at most: each moves `p` on by one
byte or more, so `il - p` are enough. -/
def scanFrom (m : Memory) (il : Nat) : Nat → Nat → Except Fault (Nat × Nat)
  | 0, _ => .ok (il, 0)
  | fuel + 1, p =>
    if p < il then
      match engineRead .ibuf m p with
      | .ok b =>
        if b = 0x00#8 then
          match zeroRun m (il - p) p with
          | .ok k =>
            match endsStartCode m il p k with
            | .ok true => .ok (p, k + 1)
            | .ok false => scanFrom m il fuel (p + k)
            | .error f => .error f
          | .error f => .error f
        else scanFrom m il fuel (p + 1)
      | .error f => .error f
    else .ok (il, 0)

/-- `FindStartCode(from, il)` (R88): the first index and the length of the first start code, or `(il, 0)`. -/
def findStartCode (m : Memory) (start il : Nat) : Except Fault (Nat × Nat) :=
  scanFrom m il (il - start) start

/-- FINDSC (R89): SCPOS, RESULT and NOSC; the cursor is untouched. -/
def execFindsc (s : State) : Host.Outcome State Fault Refusal :=
  match findStartCode s.ibuf s.arg0Value s.ilenValue with
  | .ok (p, len) =>
    .next { s with scpos := zext32 p, result := zext32 len, nosc := decide (len = 0) }
  | .error f => .fault f

/-- The loop of EXTRACT (R91) with `n` input bytes to go at index `i`: `z` zero bytes copied since the last
non-zero or dropped byte, `o` bytes written to RBUF, whose contents are `rb`. -/
def deescape (ib : Memory) : Nat → Nat → Nat → Nat → Memory → Except Fault (Nat × Memory)
  | 0, _, _, o, rb => .ok (o, rb)
  | n + 1, i, z, o, rb =>
    match engineRead .ibuf ib i with
    | .ok b =>
      if 2 ≤ z ∧ b = 0x03#8 then deescape ib n (i + 1) 0 o rb
      else deescape ib n (i + 1) (if b = 0x00#8 then z + 1 else 0) (o + 1) (rb.write o b)
    | .error f => .error f

/-- NALHDR after an EXTRACT of `o` bytes (10_state.md R29): `0x100 | RBUF[0]`, or 0 when the output is
empty. -/
def nalHeader (o : Nat) (rb : Memory) : Except Fault Word :=
  if 1 ≤ o then
    match engineRead .rbuf rb 0 with
    | .ok h => .ok (0x100#32 ||| h.setWidth 32)
    | .error f => .error f
  else .ok 0#32

/-- EXTRACT (R91): de-escape IBUF[LARG0 .. LARG0+LARG1) into RBUF, a fresh cursor over the output, and
NALHDR. -/
def execExtract (s : State) : Host.Outcome State Fault Refusal :=
  match deescape s.ibuf s.arg1Value s.arg0Value 0 0 s.rbuf with
  | .ok (o, rb) =>
    match nalHeader o rb with
    | .ok h => .next ({ s with rbuf := rb, nalhdr := h }.initCursor (zext32 o))
    | .error f => .fault f
  | .error f => .fault f

end Sys2Proof.Machine
end

