-- ==== Sys2Proof/Machine/Dispatch.lean ====
section
/-!
DEFINITION. Which meaning each command has (20_memory.md R49): one arm per constructor of `Instr`.
-/

namespace Sys2Proof.Machine

def exec (i : Instr) (s : State) : Host.Outcome State Fault Refusal :=
  match i with
  | .cinit => Sys2Proof.Machine.execCinit s
  | .rdbits n => Sys2Proof.Machine.execRdbits n s
  | .rdue => Sys2Proof.Machine.execRdue s
  | .rdse => Sys2Proof.Machine.execRdse s
  | .skipsl size => Sys2Proof.Machine.execSkipsl size s
  | .findsc => Sys2Proof.Machine.execFindsc s
  | .extract => Sys2Proof.Machine.execExtract s

end Sys2Proof.Machine
end

