-- ==== Sys2Proof/Machine/HostBus.lean ====
section
/-!
DEFINITION. The host's side (20_memory.md R36 to R53): where a bus access lands, the four host steps
(R47), and the host's turn.
-/

namespace Sys2Proof.Machine

/-- The register at a 4-byte-aligned offset of the register window (10_state.md R19, 20_memory.md R38); none
where the offset is not aligned or lies past `0xFF`. -/
def regAt (off : Nat) : Option Reg :=
  match off with
  | 0x00 => some .cmd
  | 0x04 => some .status
  | 0x08 => some .result
  | 0x0C => some .arg0
  | 0x10 => some .arg1
  | 0x14 => some .ilen
  | 0x18 => some .rlen
  | 0x1C => some .bitpos
  | 0x20 => some .deficit
  | 0x24 => some .scpos
  | 0x28 => some .nalhdr
  | off => if 0x2C ≤ off ∧ off < 0x100 ∧ off % 4 = 0 then some .reserved else none

/-- What a bus access reaches (R37). -/
inductive Target where
  | reg (r : Reg)
  | byte (b : Buffer) (a : Nat)
  deriving DecidableEq, Repr

/-- The offset of IBUF byte 0 in the host window (R37). -/
def ibufOffset : Nat := 0x01000000

/-- The offset of RBUF byte 0 in the host window (R37). -/
def rbufOffset : Nat := 0x02000000

/-- The row of R37 an offset and a width fall in, or none: a host bus error (R42). DEDUCED (log 19): an
address outside the window is in no row either; safe. -/
def targetAt (p : Params) (off bits : Nat) : Option Target :=
  if bits = 32 then (regAt off).map .reg
  else if bits = 8 then
    if ibufOffset ≤ off ∧ off < ibufOffset + p.ibufSize then some (.byte .ibuf (off - ibufOffset))
    else if rbufOffset ≤ off ∧ off < rbufOffset + p.rbufSize then some (.byte .rbuf (off - rbufOffset))
    else none
  else none

/-- What an access of `bits` bits at byte address `addr` reaches: the window starts at BLOCK_BASE (R36). -/
def busTarget (p : Params) (addr bits : Nat) : Option Target :=
  if p.blockBase ≤ addr then targetAt p (addr - p.blockBase) bits else none

/-- The value a register read returns (10_state.md R19 to R29, 20_memory.md R38): CMD and the reserved
offsets read 0. -/
def State.regRead (s : State) : Reg → Word
  | .cmd => 0#32
  | .status => s.statusWord
  | .result => s.result
  | .arg0 => s.arg0
  | .arg1 => s.arg1
  | .ilen => s.ilen
  | .rlen => s.rlen
  | .bitpos => s.bitpos
  | .deficit => s.deficit
  | .scpos => s.scpos
  | .nalhdr => s.nalhdr
  | .reserved => 0#32

/-- ILEN is write-any-read-legal: `min(v, IBUF_SIZE)` is stored (10_state.md R24). -/
def clampIlen (p : Params) (v : Word) : Word := BitVec.ofNat 32 (min v.toNat p.ibufSize)

/-- The effect of a register write (10_state.md R19 to R24, 20_memory.md R46): read-only registers and the
reserved offsets ignore it. -/
def State.regWrite (s : State) (r : Reg) (v : Word) : State :=
  match r with
  | .cmd => s.issue v
  | .status => s.statusWrite v
  | .arg0 => { s with arg0 := v }
  | .arg1 => { s with arg1 := v }
  | .ilen => { s with ilen := clampIlen s.params v }
  | .result => s
  | .rlen => s
  | .bitpos => s
  | .deficit => s
  | .scpos => s
  | .nalhdr => s
  | .reserved => s

/-- The host is answered: the value joins the model's record of replies (log 3). -/
def State.reply (s : State) (r : Reply) : State := { s with replies := r :: s.replies }

/-- `HostRead(off)` (R47): no side effect (R46). -/
def hostRead (r : Reg) (s : State) : State := s.reply (.word r (s.regRead r))

/-- `HostWrite(off, v)` (R47). -/
def hostWrite (r : Reg) (v : Word) (s : State) : State := (s.regWrite r v).tick

/-- The pending command is an EXTRACT (R52). -/
def State.extractPending (s : State) : Bool :=
  s.pending && (match decode s.lcmd with | .ok .extract => true | _ => false)

/-- The byte a host read returns: the contents; a free value where nothing has written the byte (U1), and for
RBUF while an EXTRACT is pending (R52). -/
def State.hostByte (s : State) (b : Buffer) (a : Nat) : Byte :=
  if b = .rbuf ∧ s.extractPending = true then Config.drawByte s.draws b a
  else
    match (s.buffer b).read a with
    | some v => v
    | none => Config.drawByte s.draws b a

/-- `HostReadByte(B, a)` (R47): no side effect (R46). -/
def hostReadByte (b : Buffer) (a : Nat) (s : State) : State := s.reply (.byte b a (s.hostByte b a))

/-- `HostWriteByte(B, a, v)` (R47): the model fault HAZARD while BUSY = 1 (R53). -/
def hostWriteByte (b : Buffer) (a : Nat) (v : Byte) (s : State) : Host.Outcome State Fault Refusal :=
  if s.pending then .fault .hazard else .next (s.writeByte b a v).tick

/-- One bus access of the host; one that R37 does not admit is not performed and is the model fault HOSTERR
(R42), also while BUSY = 1. DEDUCED (log 9): HAZARD is for an access that reaches a buffer byte; safe. -/
def hostAccess (a : BusAccess) (s : State) : Host.Outcome State Fault Refusal :=
  match a with
  | .read addr bits =>
    match busTarget s.params addr bits with
    | some (.reg r) => .next (hostRead r s)
    | some (.byte b k) => .next (hostReadByte b k s)
    | none => .fault .hosterr
  | .write addr bits v =>
    match busTarget s.params addr bits with
    | some (.reg r) => .next (hostWrite r v s)
    | some (.byte b k) => hostWriteByte b k (v.setWidth 8) s
    | none => .fault .hosterr

/-- One step of `WAIT` (30_encoding.md R70): `HostRead(0x04)`, and the host goes on when bit 0 reads 0. -/
def hostWait (rest : List HostOp) (s : State) : State :=
  if s.pending then hostRead .status s else hostRead .status { s with host := rest }

/-- The host's turn: its next step in program order (R47, R50); nothing where it has none. -/
def hostTurn (s : State) : Host.Outcome State Fault Refusal :=
  match s.host with
  | [] => .next s
  | .wait :: rest => .next (hostWait rest s)
  | .access a :: rest => hostAccess a { s with host := rest }

end Sys2Proof.Machine
end

