-- ==== Sys2Proof/Machine/Agents.lean ====
section
/-!
DEFINITION. The turns of the engine and of the platform's reset (20_memory.md R49, 70_reset_and_hazards.md
R109), and which agent's turn it is (20_memory.md R50).
-/

namespace Sys2Proof.Machine

/-- The end of the engine's step: a command that ran is complete (R49); a model fault ends the run. -/
def finishCommand : Host.Outcome State Fault Refusal → Host.Outcome State Fault Refusal
  | .next s => .next s.complete
  | .fault f => .fault f
  | .refused r => .refused r

/-- `EngineStep` (R49): enabled exactly when PENDING = 1, it executes the latched command to its end and clears
PENDING. Where it is not enabled its turn passes. A latch that fails `Legal` is a stuck state (log 5). -/
def engineTurn (s : State) : Host.Outcome State Fault Refusal :=
  if s.pending then
    match s.latched with
    | .ok i => finishCommand (exec i s)
    | .error _ => .fault .illegalLatch
  else .next s

/-- Reset in any state (R109): registers and latch at their reset values, both buffers unspecified again, a
pending command abandoned. The host's own list and record are not the engine's and stay (log 16). -/
def resetTurn (s : State) : State :=
  { State.resetWith s.params with
    host := s.host, turns := s.turns, replies := s.replies, draws := s.draws + 1 }

/-- The turn of the agent `t` (R50). -/
def takeTurn (t : Turn) (s : State) : Host.Outcome State Fault Refusal :=
  match t with
  | .host => hostTurn s
  | .engine => engineTurn s
  | .reset => .next (resetTurn s)

/-- The agent that moves where `turns` says nothing. DESIGN CHOICE (log 2): the engine when a command is
pending, else the host; safe for a claim about every state. -/
def defaultTurn (s : State) : Turn := if s.pending then .engine else .host

/-- One step of the total order (R50): the agent `turns` names, else the default. -/
def agentStep (s : State) : Host.Outcome State Fault Refusal :=
  match s.turns with
  | [] => takeTurn (defaultTurn s) s
  | t :: rest => takeTurn t { s with turns := rest }

/-- The state as an accepted issue of `w` leaves it (R48), whatever its legality, with the engine to move
next (log 4). -/
def State.place (s : State) (w : Word) : State :=
  { s.latch w with turns := .engine :: s.turns }

end Sys2Proof.Machine
end

