-- ==== Sys2Proof/Machine/Step.lean ====
section
/-!
DEFINITION. One step of the machine, and where its next command stands (20_memory.md R49, R50). The engine
fetches nothing (R55): its next command is the latch, written at issue.
-/

namespace Sys2Proof.Machine

/-- One step: the next state, a model fault, or a refusal. -/
def step (s : State) : Host.Outcome State Fault Refusal := agentStep s

/-- `s` with the command word `w` latched, as an accepted issue leaves it, so that the very next step is the
engine's and executes it (log 4). Bits above `nbits` are zero. -/
def State.withFetchWord (s : State) (nbits w : Nat) : State :=
  s.place (BitVec.ofNat 32 (w % 2 ^ nbits))

end Sys2Proof.Machine
end

