-- ==== Sys2Proof/Machine/HostProgram.lean ====
section
/-!
DEFINITION. Host programs (30_encoding.md R70, R71): each statement and pseudo-instruction as the host
steps it stands for. Host variables, arithmetic and control flow take no engine step (R70, R72): a read's
value is the newest entry of `State.replies`.
-/

namespace Sys2Proof.Machine

/-- The offset of a register in the window (10_state.md R19); the first reserved offset for `reserved`. -/
def Reg.offset : Reg → Nat
  | .cmd => 0x00
  | .status => 0x04
  | .result => 0x08
  | .arg0 => 0x0C
  | .arg1 => 0x10
  | .ilen => 0x14
  | .rlen => 0x18
  | .bitpos => 0x1C
  | .deficit => 0x20
  | .scpos => 0x24
  | .nalhdr => 0x28
  | .reserved => 0x2C

/-- The host address of a buffer byte (20_memory.md R37). -/
def byteAddress (p : Params) (b : Buffer) (a : Nat) : Nat :=
  match b with
  | .ibuf => p.blockBase + ibufOffset + a
  | .rbuf => p.blockBase + rbufOffset + a

/-- The statements of a host program (R70) and its pseudo-instructions (R71). -/
inductive Stmt where
  | command (i : Instr)                                  -- a mnemonic: ISSUE its word, WAIT
  | issue (w : Word)                                     -- ISSUE <word>
  | wait                                                 -- WAIT
  | set (r : Reg) (v : Word)                             -- ARG0 = e, ARG1 = e, ILEN = e, STATUS = e
  | get (r : Reg)                                        -- x := R
  | fill (b : Buffer) (a : Nat) (bytes : List Byte)      -- IBUF[a..] = bytes, RBUF[a..] = bytes
  | getByte (b : Buffer) (a : Nat)                       -- x := RBUF[a], x := IBUF[a]
  | rdflag                                               -- RDBITS 1
  | rdu8                                                 -- RDBITS 8
  | rduev                                                -- RDUE; x := RESULT
  | rdsev                                                -- RDSE; x := sext_32(RESULT)
  | rdbitsv (n : Nat)                                    -- RDBITS n; x := RESULT
  deriving DecidableEq, Repr

/-- A register write of the host. -/
def writeReg (p : Params) (r : Reg) (v : Word) : HostOp :=
  .access (.write (p.blockBase + r.offset) 32 v)

/-- A register read of the host. -/
def readReg (p : Params) (r : Reg) : HostOp := .access (.read (p.blockBase + r.offset) 32)

/-- `HostWriteByte` of each byte at `a`, `a+1`, … (R70). -/
def writeBytes (p : Params) (b : Buffer) : Nat → List Byte → List HostOp
  | _, [] => []
  | a, v :: vs => .access (.write (byteAddress p b a) 8 (v.setWidth 32)) :: writeBytes p b (a + 1) vs

/-- A mnemonic of a command: `ISSUE <its word>` followed by `WAIT` (R71). -/
def issueAndWait (p : Params) (i : Instr) : List HostOp := [writeReg p .cmd (encode i), .wait]

/-- The host steps of a statement (R70, R71). -/
def Stmt.steps (p : Params) : Stmt → List HostOp
  | .command i => issueAndWait p i
  | .issue w => [writeReg p .cmd w]
  | .wait => [.wait]
  | .set r v => [writeReg p r v]
  | .get r => [readReg p r]
  | .fill b a bytes => writeBytes p b a bytes
  | .getByte b a => [.access (.read (byteAddress p b a) 8)]
  | .rdflag => issueAndWait p (.rdbits 1)
  | .rdu8 => issueAndWait p (.rdbits 8)
  | .rduev => issueAndWait p .rdue ++ [readReg p .result]
  | .rdsev => issueAndWait p .rdse ++ [readReg p .result]
  | .rdbitsv n => issueAndWait p (.rdbits n) ++ [readReg p .result]

/-- The host steps of a straight line of statements, in program order (20_memory.md R50). -/
def programSteps (p : Params) (prog : List Stmt) : List HostOp := prog.flatMap (Stmt.steps p)

/-- The engine with a host program to run. -/
def State.withProgram (s : State) (prog : List Stmt) : State :=
  { s with host := programSteps s.params prog }

end Sys2Proof.Machine
end

