-- ==== Sys2Proof/Machine/Instances.lean ====
section
/-!
DEFINITION. Several engine instances (20_memory.md R54, 60_exceptions.md R106): each has its own registers,
buffers and host-visible command stream, and they share nothing.
-/

namespace Sys2Proof.Machine

/-- A platform with several instances: one State each. Their unspecified bytes are drawn by each one's own
counter from one free value (DESIGN CHOICE, log 20). -/
abbrev Platform := List State

/-- Instance `k` takes a step; the others are unchanged. A platform without an instance `k` does not move.
DESIGN CHOICE (log 21): a model fault of one instance is the outcome of the whole platform, so no other
instance steps on after it; safe, since the model stops where the other instances go on. -/
def Platform.stepAt (sys : Platform) (k : Nat) : Host.Outcome Platform Fault Refusal :=
  match sys[k]? with
  | none => .next sys
  | some s =>
    match step s with
    | .next t => .next (sys.set k t)
    | .fault f => .fault f
    | .refused r => .refused r

end Sys2Proof.Machine
end

