-- ==== Sys2Proof/Codes.lean ====
section
/-!
DEFINITION. The bitstream codes of 30_encoding.md Part B, on the encoder's side: what bits stand for a
value (R63 to R65), what a start code is (R67), which bytes emulation prevention removes (R68), and which
lists of deltas are a scaling list (41_expgolomb.md R82). Statements compare the engine's commands with
these; no step of the machine uses them.
-/

namespace Sys2Proof.Codes

/-- `u(n)` (R63): the value of the `n` bits `b 0, b 1, …`, `sum_{i<n} b_i × 2^(n-1-i)`. -/
def fieldValue (b : Nat → Bool) (n : Nat) : Nat :=
  ∑ i ∈ Finset.range n, (b i).toNat * 2 ^ (n - 1 - i)

/-- The binary numeral of `v ≥ 1`, most significant digit first. -/
def numeral (v : Nat) : List Bool :=
  (List.range (Nat.log2 v + 1)).map (fun i => v.testBit (Nat.log2 v - i))

/-- The `ue(v)` code of `v` (R64): "the binary numeral of `v + 1` preceded by one fewer zeros than it has
digits". -/
def ueCode (v : Nat) : List Bool :=
  List.replicate (Nat.log2 (v + 1)) false ++ numeral (v + 1)

/-- The code number of a signed value (R65): `2x - 1` for `x > 0` and `-2x` for `x ≤ 0`. -/
def codeNumber (x : Int) : Nat := if 0 < x then (2 * x - 1).toNat else (-2 * x).toNat

/-- The `se(v)` code of a signed value (R65). -/
def seCode (x : Int) : List Bool := ueCode (codeNumber x)

/-- A start code of `len` bytes at index `p`, ending before `il` (R67): two or more `0x00` bytes, then one
`0x01` byte. -/
abbrev IsStartCode (m : Machine.Memory) (il p len : Nat) : Prop :=
  3 ≤ len ∧ p + len ≤ il ∧ (∀ i < len - 1, m.read (p + i) = some 0x00#8)
    ∧ m.read (p + (len - 1)) = some 0x01#8

/-- A NAL unit's bytes without the emulation-prevention bytes (R68, 42_nal.md R91): the exact sequence
`00 00 03` loses its `03`, and scanning resumes after it. -/
def removeEmulation : List Byte → List Byte
  | 0x00#8 :: 0x00#8 :: 0x03#8 :: rest => 0x00#8 :: 0x00#8 :: removeEmulation rest
  | b :: rest => b :: removeEmulation rest
  | [] => []

/-- The deltas of one whole scaling list of `size` entries (R82): the running scale is 8 plus the deltas so far
modulo 256; a delta follows only while the scale is not 0, and there are `size` of them unless it became 0
before. -/
abbrev IsScalingList (size : Nat) (ds : List Int) : Prop :=
  1 ≤ ds.length ∧ ds.length ≤ size
    ∧ (∀ k < ds.length, 1 ≤ k → (8 + (ds.take k).sum) % 256 ≠ 0)
    ∧ (ds.length < size → (8 + ds.sum) % 256 = 0)

end Sys2Proof.Codes
end

