-- ==== Sys2Proof/Safety.lean ====
section
/-!
DEFINITION. What counts as a safe run, in the terms the statements use: the states a run can reach
(10_state.md R35), a run without a model fault (60_exceptions.md R100), and what a command can read.
-/

namespace Sys2Proof.Machine

/-- What every reachable state satisfies: R35's bounds, the ranges of the parameters (00_scope.md R7), and
the canonical form and bounds of the two buffers (10_state.md R30). -/
structure State.Inv (s : State) : Prop where
  params : s.params.Ok
  ilen : s.ilen.toNat ≤ s.params.ibufSize
  rlen : s.rlen.toNat ≤ s.params.rbufSize
  bitpos : s.cursor ≤ s.endBit
  scpos : s.scpos.toNat ≤ 2 ^ 24
  nalhdr : s.nalhdr.toNat < 2 ^ 9
  lilen : s.lilen.toNat ≤ s.params.ibufSize
  ibufForm : s.ibuf.wf
  ibufWithin : s.ibuf.Within s.params.ibufSize
  rbufForm : s.rbuf.wf
  rbufWithin : s.rbuf.Within s.params.rbufSize

/-- While a command is pending, the latch passes `Legal` (20_memory.md R48, R49). -/
abbrev State.LatchOk (s : State) : Prop := s.pending = true → s.latched.isOk = true

/-- The part of R35 that the cursor's commands rest on: RLEN at most `2^24` and BITPOS inside the buffer. -/
abbrev State.CursorOk (s : State) : Prop := s.rlen.toNat ≤ 2 ^ 24 ∧ s.cursor ≤ s.endBit

/-- Every byte of the cursor buffer has been written (R32). -/
abbrev State.CursorWritten (s : State) : Prop := ∀ a < s.rlen.toNat, (s.rbuf.read a).isSome = true

/-- Every byte of `m` at indices `lo` to `hi - 1` has been written (R32). -/
abbrev Memory.WrittenIn (m : Memory) (lo hi : Nat) : Prop :=
  ∀ a < hi, lo ≤ a → (m.read a).isSome = true

/-- The cursor buffer holds the bits `bits` from stream bit `k` on, wholly inside it and written. -/
abbrev State.HasBits (s : State) (k : Nat) (bits : List Bool) : Prop :=
  k + bits.length ≤ s.endBit ∧ ∀ j (h : j < bits.length), s.streamBit (k + j) = .ok bits[j]

/-- The bits `b 0 … b (n-1)` are what `n` reads of the cursor return (40_bitreader.md R74): a written bit of
the buffer, and 0 at and past its end. -/
abbrev State.ReadsBits (s : State) (k n : Nat) (b : Nat → Bool) : Prop :=
  ∀ i < n, if k + i < s.endBit then s.streamBit (k + i) = .ok (b i) else b i = false

/-- DEFICIT after `n` more bit reads past the end, saturating (10_state.md R27). -/
def deficitAfter (d : Word) (n : Nat) : Word := zext32 (min (d.toNat + n) Config.deficitMax)

/-- The commands of the cursor (40_bitreader.md, 41_expgolomb.md), which change nothing but the cursor, its
flags and RESULT. -/
def isCursorCommand : Instr → Bool
  | .rdbits _ => true
  | .rdue => true
  | .rdse => true
  | .skipsl _ => true
  | .cinit => false
  | .findsc => false
  | .extract => false

/-- A run of `n` steps from `s` meets no model fault and no refusal: the premise "no model fault" of R100. -/
def SafeRun (n : Nat) (s : State) : Prop := ∃ t, Host.Core.run core n s = .next t

/-- The states of an engine whose host and schedule are the environment's: they start at reset with legal
parameters, step, and may be given any further host steps and turns (00_scope.md R6, 20_memory.md R50). -/
inductive Reachable : State → Prop where
  | reset (p : Params) (ok : p.Ok) : Reachable (State.resetWith p)
  | step {s t : State} (h : Reachable s) (hs : Machine.step s = .next t) : Reachable t
  | environment {s : State} (h : Reachable s) (host : List HostOp) (turns : List Turn) :
      Reachable { s with host := host, turns := turns }

/-- In the step from `s` the engine executes the command `i`: it is the engine's turn, a command is pending,
and the latch holds `i` (20_memory.md R49). -/
abbrev State.EngineRuns (s : State) (i : Instr) : Prop :=
  (s.turns.head? = some .engine ∨ s.turns = []) ∧ s.pending = true ∧ s.latched = .ok i

/-- The step from `s` is a reset (70_reset_and_hazards.md R109). -/
abbrev State.ResetsNow (s : State) : Prop := s.turns.head? = some .reset

/-- It is the host's turn in `s`: `turns` says so, or it is silent and no command is pending (log 2). -/
abbrev State.HostMoves (s : State) : Prop :=
  s.turns.head? = some .host ∨ (s.turns = [] ∧ s.pending = false)

/-- In the step from `s` the host performs the bus access `a` (20_memory.md R47). -/
abbrev State.HostDoes (s : State) (a : BusAccess) : Prop :=
  s.HostMoves ∧ s.host.head? = some (.access a)

/-- The state in which the host's next access is performed: its list and the turns have moved on. -/
def State.afterHead (s : State) : State := { s with host := s.host.tail, turns := s.turns.tail }

/-- The host address of a register (10_state.md R19). -/
def State.address (s : State) (off : Nat) : Nat := s.params.blockBase + off

end Sys2Proof.Machine
end

