-- ==== Sys2Proof/Certificates/Slice0/Obligations.lean ====
section
/-!
DEFINITION. The statements for the provers. Each formalises a rule of spec/ (its docstring names it) or is
derived from rules; OBLIGATIONS.json lists them.
-/

open Sys2Proof Sys2Proof.Machine Sys2Proof.Codes

/-! ## Encoding -/

/-- Decoding the word of a well-formed command gives that command back, with every operand at every value
its encoding admits (30_encoding.md R58 to R60). -/
def Obligations.DecodeOfEncodeIsTheCommand : Prop :=
  ∀ i : Instr, i.WellFormed → decode (encode i) = .ok i

/-- A word that decodes is the one encoding of a well-formed command: no reserved bit is dropped and no two
words mean the same (30_encoding.md R58, R60, R62). -/
def Obligations.DecodedWordIsTheEncoding : Prop :=
  ∀ (w : Word) (i : Instr), decode w = .ok i → i.WellFormed ∧ encode i = w

/-- `Legal` is R61's list of checks in its order, on the word as a number: opcode, reserved bits, count,
range. -/
def Obligations.LegalFollowsTheListOfChecks : Prop :=
  ∀ (p : Params) (w : Word) (a0 a1 il : Nat),
    (match legal p w a0 a1 il with
      | .ok _ => none
      | .error r => some r) =
    (let op := w.toNat / 2 ^ 28
     let low := w.toNat % 2 ^ 28
     if ¬(1 ≤ op ∧ op ≤ 7) then some IllReason.opcode
     else if op = 2 ∧ low / 2 ^ 6 ≠ 0 then some .reserved
     else if op = 5 ∧ low / 2 ≠ 0 then some .reserved
     else if op ≠ 2 ∧ op ≠ 5 ∧ low ≠ 0 then some .reserved
     else if op = 2 ∧ ¬(1 ≤ low % 2 ^ 6 ∧ low % 2 ^ 6 ≤ 32) then some .count
     else if op = 1 ∧ ¬(a0 ≤ p.rbufSize) then some .range
     else if op = 6 ∧ ¬(a0 ≤ il) then some .range
     else if op = 7 ∧ ¬(a0 ≤ il ∧ a1 ≤ il - a0 ∧ a1 ≤ p.rbufSize) then some .range
     else none)

/-- Words written out from R60's opcode map, one or more of every family, decode to the commands they stand
for; the all-zero word and the counts 0 and 33 are refused (R62). -/
def Obligations.WordsOfTheOpcodeMapDecode : Prop :=
  decode 0x10000000#32 = .ok .cinit ∧ decode 0x20000001#32 = .ok (.rdbits 1)
    ∧ decode 0x20000020#32 = .ok (.rdbits 32) ∧ decode 0x30000000#32 = .ok .rdue
    ∧ decode 0x40000000#32 = .ok .rdse ∧ decode 0x50000000#32 = .ok (.skipsl .sixteen)
    ∧ decode 0x50000001#32 = .ok (.skipsl .sixtyFour) ∧ decode 0x60000000#32 = .ok .findsc
    ∧ decode 0x70000000#32 = .ok .extract ∧ decode 0x00000000#32 = .error .opcode
    ∧ decode 0x80000000#32 = .error .opcode ∧ decode 0x20000000#32 = .error .count
    ∧ decode 0x20000021#32 = .error .count ∧ decode 0x20000040#32 = .error .reserved
    ∧ decode 0x50000002#32 = .error .reserved ∧ decode 0x10000001#32 = .error .reserved

/-! ## Reset -/

/-- Reset puts every register and the latch at 0, for every value of the parameters
(70_reset_and_hazards.md R107). -/
def Obligations.ResetZeroesRegistersAndLatch : Prop :=
  ∀ p : Params, (∀ r : Reg, (State.resetWith p).regRead r = 0#32)
    ∧ (State.resetWith p).pending = false ∧ (State.resetWith p).lcmd = 0#32
    ∧ (State.resetWith p).larg0 = 0#32 ∧ (State.resetWith p).larg1 = 0#32
    ∧ (State.resetWith p).lilen = 0#25 ∧ State.reset = State.resetWith Config.resetParams

/-- After reset no byte of either buffer is written, and an engine read of any is the model fault UNINIT
(70_reset_and_hazards.md R108). -/
def Obligations.ResetLeavesBuffersUnwritten : Prop :=
  ∀ (p : Params) (b : Buffer) (a : Nat),
    ((State.resetWith p).buffer b).read a = none
      ∧ engineRead b ((State.resetWith p).buffer b) a = .error (.uninit b a)

/-- A reset in any state abandons the pending command and leaves every register, the latch and both buffers
as after reset (70_reset_and_hazards.md R109). That the host's list, the turns and the replies stay is the
model's choice (log 16). -/
def Obligations.ResetTurnAbandonsTheCommand : Prop :=
  ∀ (s : State) (rest : List Turn), s.turns = .reset :: rest →
    step s = .next { State.resetWith s.params with
      host := s.host, turns := rest, replies := s.replies, draws := s.draws + 1 }

/-! ## Invariants -/

/-- The invariant holds right after reset, for every legal value of the parameters. -/
def Obligations.ResetMeetsTheInvariant : Prop :=
  (∀ p : Params, p.Ok → (State.resetWith p).Inv ∧ (State.resetWith p).LatchOk) ∧ State.reset.Inv

/-- Every step keeps the invariant: R35's bounds on ILEN, RLEN, BITPOS, SCPOS and NALHDR, the canonical form
of both buffers, and every written index below the buffer's capacity (10_state.md R30, R35). -/
def Obligations.EveryStepKeepsTheInvariant : Prop :=
  ∀ s t : State, s.Inv → step s = .next t → t.Inv

/-- In every reachable state, whatever the host does and however the agents' steps interleave, R35's bounds
hold, STATUS bits 31:6 and NALHDR bits 31:9 are 0, and BUSY is PENDING (10_state.md R35). -/
def Obligations.ReachableStatesMeetTheBounds : Prop :=
  ∀ s : State, Reachable s →
    s.ilen.toNat ≤ s.params.ibufSize ∧ s.rlen.toNat ≤ s.params.rbufSize
      ∧ s.bitpos.toNat ≤ 8 * s.rlen.toNat ∧ s.scpos.toNat ≤ 2 ^ 24
      ∧ (∀ i, 6 ≤ i → (s.regRead .status).getLsbD i = false)
      ∧ (∀ i, 9 ≤ i → s.nalhdr.getLsbD i = false)
      ∧ (s.regRead .status).getLsbD 0 = s.pending

/-- A pending command's latch passes `Legal`, every step keeps that, and so no step ends in the stuck state of
log 5: "No other opcode can be latched" (20_memory.md R48, R49). -/
def Obligations.LatchedCommandStaysLegal : Prop :=
  ∀ s : State, s.Inv → s.LatchOk →
    (∀ t, step s = .next t → t.LatchOk) ∧ step s ≠ .fault .illegalLatch

/-- No step changes the parameters (00_scope.md R7). -/
def Obligations.NoStepChangesTheParameters : Prop :=
  ∀ s t : State, step s = .next t → t.params = s.params

/-! ## The step -/

/-- The engine's step executes the latched command to its end and then clears PENDING; with PENDING = 0 the
engine is not enabled and its turn passes (20_memory.md R49). -/
def Obligations.EngineStepRunsTheLatchedCommand : Prop :=
  (∀ (s t : State) (i : Instr), s.EngineRuns i →
    exec i { s with turns := s.turns.tail } = .next t →
      step s = .next { t with pending := false, draws := t.draws + 1 })
  ∧ ∀ (s : State) (rest : List Turn), s.turns = .engine :: rest → s.pending = false →
      step s = .next { s with turns := rest }

/-- The word that `withFetchWord` latches is the command the very next step runs: when it decodes and its
operands are in range, the step is `exec` of it on the state with the latch written, followed by the
completion (log 4). -/
def Obligations.PlacedWordRunsNext : Prop :=
  ∀ (s t : State) (w : Word) (i : Instr),
    legal s.params w s.arg0.toNat s.arg1.toNat (s.ilen.setWidth 25).toNat = .ok i →
    exec i { s with lcmd := w, larg0 := s.arg0, larg1 := s.arg1, lilen := s.ilen.setWidth 25,
                    pending := true } = .next t →
    step (s.withFetchWord 32 w.toNat) = .next { t with pending := false, draws := t.draws + 1 }

/-- An idle engine waits: with no command pending and nothing for the host to do, a step changes nothing
(70_reset_and_hazards.md R109). -/
def Obligations.IdleEngineWaits : Prop :=
  ∀ s : State, s.pending = false → s.host = [] → s.turns = [] → step s = .next s

/-- Between an issue and its completion the order of the agents is open: with a command pending and a CMD
write next in the host's list, the host's turn drops the word with OVR, and the engine's turn runs the
command first (70_reset_and_hazards.md R118, 95_test_vectors.md P6). -/
def Obligations.BothOrdersOfIssueAndCompletion : Prop :=
  ∀ (s t : State) (i : Instr) (w : Word) (rest : List HostOp),
    s.pending = true → s.latched = .ok i →
    s.host = .access (.write (s.address 0) 32 w) :: rest →
    exec i s = .next t →
    (∃ u, step { s with turns := .host :: s.turns } = .next u ∧ u.ovr = true ∧ u.pending = true
        ∧ u.lcmd = s.lcmd ∧ u.host = rest ∧ u.bitpos = s.bitpos ∧ u.result = s.result)
    ∧ step { s with turns := .engine :: s.turns }
        = .next { t with pending := false, draws := t.draws + 1 }

/-! ## The host's steps -/

/-- A host write of `w` to CMD is R48's issue attempt: OVR while a command is pending; else ILL where `Legal`
fails; else the latch. In each case nothing else changes (20_memory.md R48, R101 of 60_exceptions.md); the
model's own fields are the host's list, the turns, the draw counter and the recorded reason. -/
def Obligations.CmdWriteIsAnIssueAttempt : Prop :=
  ∀ (s : State) (w : Word), s.HostDoes (.write (s.address 0x00) 32 w) →
    step s = .next
      (if s.pending = true then { s.afterHead with ovr := true, draws := s.draws + 1 }
       else
         match legal s.params w s.arg0.toNat s.arg1.toNat s.ilen.toNat with
         | .error r => { s.afterHead with ill := true, illReason := some r, draws := s.draws + 1 }
         | .ok _ => { s.afterHead with lcmd := w, larg0 := s.arg0, larg1 := s.arg1,
                                       lilen := s.ilen.setWidth 25, pending := true,
                                       draws := s.draws + 1 })

/-- A host write to STATUS clears ILL if bit 4 is 1 and OVR if bit 5 is 1 and changes nothing else
(10_state.md R21). -/
def Obligations.StatusWriteClearsIllAndOvr : Prop :=
  ∀ (s : State) (v : Word), s.HostDoes (.write (s.address 0x04) 32 v) →
    step s = .next { s.afterHead with
      ill := if v.getLsbD 4 = true then false else s.ill,
      ovr := if v.getLsbD 5 = true then false else s.ovr, draws := s.draws + 1 }

/-- Host writes to ARG0 and ARG1 store the word, a write to ILEN stores `min(v, IBUF_SIZE)`, in every state,
pending or not (10_state.md R23, R24); a write to a read-only register changes nothing (R19). -/
def Obligations.RegisterWritesStoreTheOperands : Prop :=
  ∀ (s : State) (v : Word),
    (s.HostDoes (.write (s.address 0x0C) 32 v) →
      step s = .next { s.afterHead with arg0 := v, draws := s.draws + 1 })
    ∧ (s.HostDoes (.write (s.address 0x10) 32 v) →
      step s = .next { s.afterHead with arg1 := v, draws := s.draws + 1 })
    ∧ (s.HostDoes (.write (s.address 0x14) 32 v) →
      ∃ n : Word, n.toNat = min v.toNat s.params.ibufSize
        ∧ step s = .next { s.afterHead with ilen := n, draws := s.draws + 1 })
    ∧ (∀ off ∈ [0x08, 0x18, 0x1C, 0x20, 0x24, 0x28],
        s.HostDoes (.write (s.address off) 32 v) →
        step s = .next { s.afterHead with draws := s.draws + 1 })

/-- "A host 32-bit read of a reserved register offset returns 0x0000_0000; a host 32-bit write to one is
ignored" (20_memory.md R38), for every reserved offset. -/
def Obligations.ReservedOffsetsReadZero : Prop :=
  ∀ (s : State) (off : Nat), 0x2C ≤ off → off < 0x100 → off % 4 = 0 →
    (s.HostDoes (.read (s.address off) 32) →
      step s = .next { s.afterHead with replies := .word .reserved 0#32 :: s.replies })
    ∧ ∀ v : Word, s.HostDoes (.write (s.address off) 32 v) →
      step s = .next { s.afterHead with draws := s.draws + 1 }

/-- A host read of each register returns the value it holds and changes nothing else; CMD reads 0, and each
bit of STATUS is its flag (10_state.md R19 to R21, 20_memory.md R46, R47). -/
def Obligations.RegisterReadsReturnTheValue : Prop :=
  ∀ s : State,
    (∀ x ∈ [(0x00, Reg.cmd, 0#32), (0x08, Reg.result, s.result), (0x0C, Reg.arg0, s.arg0),
            (0x10, Reg.arg1, s.arg1), (0x14, Reg.ilen, s.ilen), (0x18, Reg.rlen, s.rlen),
            (0x1C, Reg.bitpos, s.bitpos), (0x20, Reg.deficit, s.deficit),
            (0x24, Reg.scpos, s.scpos), (0x28, Reg.nalhdr, s.nalhdr)],
      s.HostDoes (.read (s.address x.1) 32) →
      step s = .next { s.afterHead with replies := .word x.2.1 x.2.2 :: s.replies })
    ∧ (s.HostDoes (.read (s.address 0x04) 32) →
      ∃ v : Word, step s = .next { s.afterHead with replies := .word .status v :: s.replies }
        ∧ v.getLsbD 0 = s.pending ∧ v.getLsbD 1 = s.trunc ∧ v.getLsbD 2 = s.malf
        ∧ v.getLsbD 3 = s.nosc ∧ v.getLsbD 4 = s.ill ∧ v.getLsbD 5 = s.ovr
        ∧ ∀ i, 6 ≤ i → v.getLsbD i = false)

/-- With BUSY = 0 a host write of a buffer byte stores it: that byte then reads as written, every other byte
of both buffers as before, and nothing else changes (20_memory.md R47). -/
def Obligations.HostByteWriteStoresTheByte : Prop :=
  ∀ (s : State) (b : Buffer) (a : Nat) (v : Word), a < s.params.size b → s.params.Ok →
    s.pending = false → s.HostDoes (.write (byteAddress s.params b a) 8 v) →
    ∃ t, step s = .next t ∧ (t.buffer b).read a = some (v.setWidth 8)
      ∧ (∀ c k, (c, k) ≠ (b, a) → (t.buffer c).read k = (s.buffer c).read k)
      ∧ t = { s.afterHead with ibuf := t.ibuf, rbuf := t.rbuf, draws := s.draws + 1 }

/-- While BUSY = 1 a host write of a buffer byte is the model fault HAZARD, and host writes to ARG0, ARG1 and
ILEN leave the pending command as it is: PENDING, the latch and the cursor (20_memory.md R53). -/
def Obligations.BusyBufferWriteIsHazard : Prop :=
  ∀ (s : State) (v : Word), s.pending = true →
    (∀ (b : Buffer) (a : Nat), a < s.params.size b → s.params.Ok →
      s.HostDoes (.write (byteAddress s.params b a) 8 v) → step s = .fault .hazard)
    ∧ ∀ off ∈ [0x0C, 0x10, 0x14], s.HostDoes (.write (s.address off) 32 v) →
        ∃ t, step s = .next t ∧ t.pending = true ∧ t.latched = s.latched ∧ t.lcmd = s.lcmd
          ∧ t.larg0 = s.larg0 ∧ t.larg1 = s.larg1 ∧ t.lilen = s.lilen ∧ t.bitpos = s.bitpos
          ∧ t.rlen = s.rlen ∧ t.ibuf = s.ibuf ∧ t.rbuf = s.rbuf

/-- While BUSY = 1 a read of any register returns the value before the pending command and a read of a written
IBUF byte returns its contents; a read of an RBUF byte returns its contents too, where it is written and the
pending command is not EXTRACT, and some byte during a pending EXTRACT. Each changes nothing else
(20_memory.md R45, R47, R52). -/
def Obligations.BusyReadsSeeTheStateBefore : Prop :=
  ∀ s : State, s.pending = true → s.params.Ok →
    (∀ (off : Nat) (r : Reg), regAt off = some r → s.HostDoes (.read (s.address off) 32) →
      step s = .next { s.afterHead with replies := .word r (s.regRead r) :: s.replies })
    ∧ (∀ (a : Nat) (v : Byte), a < s.params.ibufSize → s.ibuf.read a = some v →
      s.HostDoes (.read (byteAddress s.params .ibuf a) 8) →
      step s = .next { s.afterHead with replies := .byte .ibuf a v :: s.replies })
    ∧ (∀ (i : Instr) (a : Nat) (v : Byte), s.latched = .ok i → i ≠ .extract → a < s.params.rbufSize →
      s.rbuf.read a = some v → s.HostDoes (.read (byteAddress s.params .rbuf a) 8) →
      step s = .next { s.afterHead with replies := .byte .rbuf a v :: s.replies })
    ∧ ∀ a : Nat, a < s.params.rbufSize → s.latched = .ok .extract →
      s.HostDoes (.read (byteAddress s.params .rbuf a) 8) →
      ∃ v : Byte, step s = .next { s.afterHead with replies := .byte .rbuf a v :: s.replies }

/-- With BUSY = 0 a host read of a written byte of either buffer returns its contents, and of a byte nothing has
written some byte; neither changes anything else (20_memory.md R47, 93_implementation_defined.md U1). -/
def Obligations.HostByteReadReturnsTheByte : Prop :=
  ∀ (s : State) (b : Buffer) (a : Nat), a < s.params.size b → s.params.Ok → s.pending = false →
    s.HostDoes (.read (byteAddress s.params b a) 8) →
    (∀ v : Byte, (s.buffer b).read a = some v →
      step s = .next { s.afterHead with replies := .byte b a v :: s.replies })
    ∧ ((s.buffer b).read a = none →
      ∃ v : Byte, step s = .next { s.afterHead with replies := .byte b a v :: s.replies })

/-- One poll of WAIT (30_encoding.md R70): the host reads STATUS; while bit 0 reads 1 the WAIT stays at the head
of its list, and when bit 0 reads 0 the host goes on. The poll changes nothing else, and its value is what a
read of STATUS returns. -/
def Obligations.WaitPollsUntilIdle : Prop :=
  ∀ (s : State) (rest : List HostOp), s.HostMoves → s.host = .wait :: rest →
    (s.regRead .status).getLsbD 0 = s.pending
    ∧ step s = .next { s with
        host := if s.pending = true then .wait :: rest else rest
        turns := s.turns.tail
        replies := .word .status (s.regRead .status) :: s.replies }

/-- Every host read has no side effect and is idempotent: it changes the record of replies alone, and the same
read again with no step between returns the same value (20_memory.md R46). -/
def Obligations.HostReadsAreIdempotent : Prop :=
  ∀ (s t : State) (addr bits : Nat), hostAccess (.read addr bits) s = .next t →
    ∃ r, t = { s with replies := r :: s.replies }
      ∧ hostAccess (.read addr bits) t = .next { s with replies := r :: r :: s.replies }

/-- A host access that R37 does not admit (its address outside the rows, its width not the row's, a register
offset not 4-byte aligned) is the model fault HOSTERR, in every state; every access R37 admits but a buffer
write while BUSY = 1 is performed (20_memory.md R37, R42). -/
def Obligations.AccessOutsideTheMapIsHostErr : Prop :=
  ∀ (s : State) (addr bits : Nat), s.params.Ok →
    let off := addr - s.params.blockBase
    let admitted := s.params.blockBase ≤ addr ∧
      ((bits = 32 ∧ off < 0x100 ∧ off % 4 = 0)
        ∨ (bits = 8 ∧ 0x01000000 ≤ off ∧ off < 0x01000000 + s.params.ibufSize)
        ∨ (bits = 8 ∧ 0x02000000 ≤ off ∧ off < 0x02000000 + s.params.rbufSize))
    (¬admitted →
      (s.HostDoes (.read addr bits) → step s = .fault .hosterr)
      ∧ ∀ v, s.HostDoes (.write addr bits v) → step s = .fault .hosterr)
    ∧ (admitted →
      (s.HostDoes (.read addr bits) → ∃ t, step s = .next t)
      ∧ ∀ v, s.HostDoes (.write addr bits v) → (s.pending = false ∨ bits = 32) → ∃ t, step s = .next t)

/-- A command mnemonic of a host program, "ISSUE <word of M> followed by WAIT", has the effect of the command:
from an idle engine three steps (the host's write, the engine, the host's poll) leave the state `exec`
gives, with the host's list past the statement and the poll answered with BUSY = 0 (30_encoding.md R71). With
no turn given, the three steps come in the model's default order, host, engine, host, which is its choice
(log 2); `MnemonicRunsTheCommandInTurn` gives the order itself. -/
def Obligations.MnemonicRunsTheCommand : Prop :=
  ∀ (s t : State) (i : Instr) (rest : List HostOp), i.WellFormed → s.pending = false → s.turns = [] →
    s.ilen.toNat < 2 ^ 25 → s.host = issueAndWait s.params i ++ rest →
    inRange s.params i s.arg0.toNat s.arg1.toNat s.ilen.toNat = true →
    exec i { s with lcmd := encode i, larg0 := s.arg0, larg1 := s.arg1, lilen := s.ilen.setWidth 25,
                    pending := true, host := .wait :: rest, draws := s.draws + 1 } = .next t →
    ∃ v : Word, v.getLsbD 0 = false
      ∧ Host.Core.run core 3 s = .next { t with
          pending := false, host := rest, replies := .word .status v :: t.replies,
          draws := t.draws + 1 }

/-- `MnemonicRunsTheCommand` with the order of the agents given: the host issues, the engine executes, the host
polls (30_encoding.md R71, 20_memory.md R50). -/
def Obligations.MnemonicRunsTheCommandInTurn : Prop :=
  ∀ (s t : State) (i : Instr) (rest : List HostOp) (ts : List Turn), i.WellFormed → s.pending = false →
    s.turns = .host :: .engine :: .host :: ts →
    s.ilen.toNat < 2 ^ 25 → s.host = issueAndWait s.params i ++ rest →
    inRange s.params i s.arg0.toNat s.arg1.toNat s.ilen.toNat = true →
    exec i { s with lcmd := encode i, larg0 := s.arg0, larg1 := s.arg1, lilen := s.ilen.setWidth 25,
                    pending := true, host := .wait :: rest, turns := .host :: ts,
                    draws := s.draws + 1 } = .next t →
    ∃ v : Word, v.getLsbD 0 = false
      ∧ Host.Core.run core 3 s = .next { t with
          pending := false, host := rest, turns := ts, replies := .word .status v :: t.replies,
          draws := t.draws + 1 }

/-! ## The bit reader -/

/-- CINIT starts a cursor of LARG0 bytes: RLEN, BITPOS 0, TRUNC and MALF clear, DEFICIT 0, in every state, and
nothing else changes; it is legal exactly when the length is at most RBUF_SIZE (40_bitreader.md R77). -/
def Obligations.CinitStartsAFreshCursor : Prop :=
  (∀ s : State, exec .cinit s = .next { s with
      rlen := s.larg0, bitpos := 0#32, trunc := false, malf := false, deficit := 0#32 })
  ∧ ∀ (p : Params) (a0 a1 il : Nat), legal p 0x10000000#32 a0 a1 il =
      if a0 ≤ p.rbufSize then .ok .cinit else .error .range

/-- RDBITS n reads `n` bits `b 0 … b (n-1)`, the first the most significant: RESULT is
`sum_{i<n} b_i × 2^(n-1-i)` with 0 for every bit past the end; BITPOS moves over the bits inside the
buffer; TRUNC is set and DEFICIT grows exactly by the bits past the end; nothing else changes
(30_encoding.md R63, 40_bitreader.md R75, R78). -/
def Obligations.RdbitsReadsTheField : Prop :=
  ∀ (s : State) (n : Nat) (b : Nat → Bool), (Instr.rdbits n).WellFormed → s.CursorOk →
    s.ReadsBits s.cursor n b →
    exec (.rdbits n) s = .next { s with
      result := zext32 (fieldValue b n)
      bitpos := zext32 (min (s.cursor + n) s.endBit)
      trunc := s.trunc || decide (s.endBit < s.cursor + n)
      deficit := if s.endBit < s.cursor + n then deficitAfter s.deficit (s.cursor + n - s.endBit)
                 else s.deficit }

/-- `ReadBits(n)` is a function of RBUF[0 .. RLEN), RLEN and BITPOS alone: two states that agree on them give
RDBITS the same RESULT and the same BITPOS, or the same fault (40_bitreader.md R76). -/
def Obligations.RdbitsDependsOnTheCursorAlone : Prop :=
  ∀ (s u : State) (n : Nat), s.rlen = u.rlen → s.bitpos = u.bitpos →
    (∀ a < s.rlen.toNat, s.rbuf.read a = u.rbuf.read a) →
    (∀ t, exec (.rdbits n) s = .next t →
      ∃ t', exec (.rdbits n) u = .next t' ∧ t'.result = t.result ∧ t'.bitpos = t.bitpos)
    ∧ ∀ f, exec (.rdbits n) s = .fault f → exec (.rdbits n) u = .fault f

/-- Reading `m` bits and then `n` bits is reading `m + n` bits: the second RDBITS leaves every field but RESULT
as one RDBITS would, and the wide value is the two values side by side (30_encoding.md R71, 40_bitreader.md
R75). -/
def Obligations.SplitReadsJoin : Prop :=
  ∀ (s t u : State) (m n : Nat), m + n ≤ 32 →
    exec (.rdbits m) s = .next t → exec (.rdbits n) t = .next u →
    exec (.rdbits (m + n)) s =
      .next { u with result := zext32 (t.result.toNat * 2 ^ n + u.result.toNat) }

/-! ## The Exp-Golomb codec -/

/-- RDUE on every kind of prefix (41_expgolomb.md R80, R83). After `lz` zeros inside the buffer: a `1` bit
with `lz ≤ 31` gives `(1 << lz) - 1 + suffix`, the suffix zero-filled past the end with TRUNC and DEFICIT; a
run of 1 to 31 zeros that reaches the end gives 0 with TRUNC, MALF and one more in DEFICIT; no bit left gives
0 with TRUNC alone; 32 zeros give 0 with MALF alone. Nothing else changes. -/
def Obligations.RdueDecodesEveryPrefix : Prop :=
  ∀ (s : State) (lz : Nat), s.CursorOk → s.HasBits s.cursor (List.replicate lz false) →
    (lz ≤ 31 → s.HasBits (s.cursor + lz) [true] →
      ∀ b : Nat → Bool, s.ReadsBits (s.cursor + lz + 1) lz b →
      exec .rdue s = .next { s with
        result := zext32 (2 ^ lz - 1 + fieldValue b lz)
        bitpos := zext32 (min (s.cursor + 2 * lz + 1) s.endBit)
        trunc := s.trunc || decide (s.endBit < s.cursor + 2 * lz + 1)
        deficit := if s.endBit < s.cursor + 2 * lz + 1
                   then deficitAfter s.deficit (s.cursor + 2 * lz + 1 - s.endBit) else s.deficit })
    ∧ (1 ≤ lz → lz ≤ 31 → s.cursor + lz = s.endBit →
      exec .rdue s = .next { s with
        result := 0#32, bitpos := zext32 s.endBit, trunc := true, malf := true,
        deficit := deficitAfter s.deficit 1 })
    ∧ (lz = 0 → s.cursor = s.endBit →
      exec .rdue s = .next { s with
        result := 0#32, trunc := true, deficit := deficitAfter s.deficit 1 })
    ∧ (lz = 32 →
      exec .rdue s = .next { s with result := 0#32, bitpos := zext32 (s.cursor + 32), malf := true })

/-- Round trip of `ue(v)`: RDUE on the code of any `v` from 0 to `2^32 - 2`, wholly inside the buffer, returns
`v`, moves the cursor over the `2 × lz + 1` bits of the code and sets no flag; nothing else changes
(41_expgolomb.md R86). -/
def Obligations.RdueDecodesTheCodeOfEveryValue : Prop :=
  ∀ (s : State) (v : Nat), v ≤ 2 ^ 32 - 2 → s.CursorOk → s.HasBits s.cursor (ueCode v) →
    exec .rdue s = .next { s with
      result := zext32 v
      bitpos := zext32 (s.cursor + 2 * Nat.log2 (v + 1) + 1) }

/-- RDSE reads what RDUE reads and maps the code number `k`: `(k+1)/2` if `k` is odd, else `-(k/2)`, in two's
complement; cursor and flags are RDUE's, and so is a fault (41_expgolomb.md R81, R84). -/
def Obligations.RdseIsTheSignedMapOfRdue : Prop :=
  ∀ s : State,
    (∀ t, exec .rdue s = .next t →
      exec .rdse s = .next { t with
        result := if t.result.toNat % 2 = 1
          then twos32 (((t.result.toNat + 1) / 2 : Nat) : Int)
          else twos32 (-((t.result.toNat / 2 : Nat) : Int)) })
    ∧ ∀ f, exec .rdue s = .fault f → exec .rdse s = .fault f

/-- Round trip of `se(v)`: RDSE on the code of any `x` from `-(2^31 - 1)` to `2^31 - 1`, wholly inside the
buffer, returns the two's-complement pattern of `x`, which the host reads back as `x`, and sets no flag
(30_encoding.md R65, 41_expgolomb.md R84). -/
def Obligations.RdseDecodesTheCodeOfEveryValue : Prop :=
  ∀ (s : State) (x : Int), -(2 ^ 31 - 1) ≤ x → x ≤ 2 ^ 31 - 1 → s.CursorOk →
    s.HasBits s.cursor (seCode x) →
    sext32 (twos32 x) = x ∧
    exec .rdse s = .next { s with
      result := twos32 x
      bitpos := zext32 (s.cursor + (seCode x).length) }

/-- SKIPSL moves the cursor over exactly one scaling list: on the codes of the deltas of a list of its size,
wholly inside the buffer, RESULT is the number of deltas and nothing else changes (41_expgolomb.md R82, R85).
The list's algorithm is one the spec marks as taken from general knowledge (log 15). -/
def Obligations.SkipslSkipsOneScalingList : Prop :=
  ∀ (s : State) (size : ListSize) (ds : List Int), IsScalingList size.entries ds →
    (∀ d ∈ ds, -(2 ^ 31 - 1) ≤ d ∧ d ≤ 2 ^ 31 - 1) → s.CursorOk →
    s.HasBits s.cursor (ds.flatMap seCode) →
    exec (.skipsl size) s = .next { s with
      result := zext32 ds.length
      bitpos := zext32 (s.cursor + (ds.flatMap seCode).length) }

/-- SKIPSL at the end of the buffer: every DecodeSE reads past the end and returns 0, so all `size` deltas are
attempted: RESULT = `size`, TRUNC, and `size` more in DEFICIT, saturating (41_expgolomb.md R85). -/
def Obligations.SkipslAtTheEndAttemptsEveryDelta : Prop :=
  ∀ (s : State) (size : ListSize), s.endBit ≤ s.cursor →
    exec (.skipsl size) s = .next { s with
      result := zext32 size.entries, trunc := true, deficit := deficitAfter s.deficit size.entries }

/-- RDBITS, RDUE, RDSE and SKIPSL complete on every cursor whose buffer is written, whatever its bits: they
change RESULT, BITPOS, TRUNC, MALF and DEFICIT alone, and BITPOS stays inside the buffer
(70_reset_and_hazards.md R117). SKIPSL's RESULT is between 1 and its size (41_expgolomb.md R82). -/
def Obligations.CursorCommandsComplete : Prop :=
  ∀ (s : State) (i : Instr), isCursorCommand i = true → i.WellFormed → s.CursorOk → s.CursorWritten →
    ∃ t, exec i s = .next t ∧ s.cursor ≤ t.cursor ∧ t.cursor ≤ t.endBit
      ∧ t = { s with result := t.result, bitpos := t.bitpos, trunc := t.trunc, malf := t.malf,
                     deficit := t.deficit }
      ∧ ∀ size, i = .skipsl size → 1 ≤ t.result.toNat ∧ t.result.toNat ≤ size.entries

/-! ## The NAL extractor -/

/-- FINDSC finds the first start code at or after `from`: where `len` bytes at `p` are one and none begins
earlier, SCPOS = `p`, RESULT = `len`, NOSC is clear; where there is none before `il`, SCPOS = `il`,
RESULT = 0, NOSC is set. Nothing else changes (42_nal.md R88, 30_encoding.md R67). -/
def Obligations.FindscFindsTheFirstStartCode : Prop :=
  ∀ s : State,
    (∀ p len : Nat, s.larg0.toNat ≤ p → IsStartCode s.ibuf s.lilen.toNat p len →
      s.ibuf.WrittenIn s.larg0.toNat (p + len) →
      (∀ q < p, s.larg0.toNat ≤ q → ∀ len' ≤ s.lilen.toNat, ¬IsStartCode s.ibuf s.lilen.toNat q len') →
      exec .findsc s = .next { s with scpos := zext32 p, result := zext32 len, nosc := false })
    ∧ (s.larg0.toNat ≤ s.lilen.toNat → s.ibuf.WrittenIn s.larg0.toNat s.lilen.toNat →
      (∀ q < s.lilen.toNat, s.larg0.toNat ≤ q →
        ∀ len' ≤ s.lilen.toNat, ¬IsStartCode s.ibuf s.lilen.toNat q len') →
      exec .findsc s =
        .next { s with scpos := zext32 s.lilen.toNat, result := 0#32, nosc := true })

/-- A 0 that FINDSC returns is signalled: NOSC is set exactly when RESULT is 0 (60_exceptions.md R98). -/
def Obligations.FindscSignalsNotFound : Prop :=
  ∀ s t : State, exec .findsc s = .next t → (t.nosc = true ↔ t.result = 0#32)

/-- EXTRACT writes the NAL unit IBUF[s .. s+n) without its emulation-prevention bytes to RBUF from index 0 and
starts a cursor over it: RLEN is the output's length, BITPOS 0, TRUNC and MALF clear, DEFICIT 0, and NALHDR
is `0x100 | RBUF[0]`, or 0 for an empty output. RBUF bytes past the output, IBUF and everything else are
unchanged (42_nal.md R91, 10_state.md R29). -/
def Obligations.ExtractRemovesEmulationBytes : Prop :=
  ∀ (s : State) (unit : List Byte), unit.length = s.larg1.toNat →
    (∀ j (h : j < unit.length), s.ibuf.read (s.larg0.toNat + j) = some unit[j]) →
    let out := removeEmulation unit
    ∃ rb : Memory,
      (∀ a, rb.read a = if a < out.length then out[a]? else s.rbuf.read a)
      ∧ exec .extract s = .next { s with
          rbuf := rb, rlen := zext32 out.length, bitpos := 0#32, trunc := false, malf := false,
          deficit := 0#32
          nalhdr := match out with
            | [] => 0#32
            | h :: _ => 0x100#32 ||| h.setWidth 32 }

/-- EXTRACT copies a unit without the sequence `00 00 03` byte for byte, so RLEN is its length; and RLEN is
never more than the input's length (42_nal.md R93). -/
def Obligations.ExtractCopiesAUnitWithoutTheSequence : Prop :=
  ∀ (s t : State) (unit : List Byte), unit.length = s.larg1.toNat →
    (∀ j (h : j < unit.length), s.ibuf.read (s.larg0.toNat + j) = some unit[j]) →
    exec .extract s = .next t →
    t.rlen.toNat ≤ s.larg1.toNat
    ∧ ((∀ j < unit.length,
          ¬(unit[j]? = some 0x00#8 ∧ unit[j + 1]? = some 0x00#8 ∧ unit[j + 2]? = some 0x03#8)) →
        t.rlen = s.larg1 ∧ ∀ j (h : j < unit.length), t.rbuf.read j = some unit[j])

/-- After an EXTRACT with a non-empty output, NALHDR's fields are those of the first RBSP byte `h`:
TYPE = `h[4:0]`, NRI = `h[6:5]`, F = `h[7]`, VALID = 1, the rest 0; with an empty output NALHDR is 0
(10_state.md R29, 30_encoding.md R69). -/
def Obligations.ExtractReportsTheNalHeader : Prop :=
  ∀ s t : State, exec .extract s = .next t →
    (∀ h : Byte, t.rlen ≠ 0#32 → t.rbuf.read 0 = some h →
      (∀ i < 8, t.nalhdr.getLsbD i = h.getLsbD i) ∧ t.nalhdr.getLsbD 8 = true
        ∧ ∀ i, 9 ≤ i → t.nalhdr.getLsbD i = false)
    ∧ (t.rlen = 0#32 → t.nalhdr = 0#32)

/-! ## Frames -/

/-- What RDBITS, RDUE, RDSE and SKIPSL leave unchanged when they complete: every register but RESULT, BITPOS
and DEFICIT, every flag but TRUNC and MALF (RDBITS leaves MALF), every byte of both buffers, the latch.
TRUNC and MALF, once set, stay set, and BITPOS does not move back (60_exceptions.md R97, 10_state.md R26). -/
def Obligations.CursorCommandsFrame : Prop :=
  ∀ (s t : State) (i : Instr), isCursorCommand i = true → s.CursorOk → exec i s = .next t →
    t = { s with result := t.result, bitpos := t.bitpos, trunc := t.trunc, malf := t.malf,
                 deficit := t.deficit }
      ∧ (∀ (b : Buffer) (a : Nat), (t.buffer b).read a = (s.buffer b).read a)
      ∧ (s.trunc = true → t.trunc = true) ∧ (s.malf = true → t.malf = true)
      ∧ (∀ n, i = .rdbits n → t.malf = s.malf)
      ∧ s.cursor ≤ t.cursor ∧ t.cursor ≤ t.endBit ∧ s.deficit.toNat ≤ t.deficit.toNat
      ∧ (s.deficit ≠ t.deficit → t.trunc = true)

/-- What FINDSC, EXTRACT and CINIT leave unchanged when they complete. FINDSC writes SCPOS, RESULT and NOSC
alone. EXTRACT writes RLEN, BITPOS, DEFICIT, NALHDR, TRUNC, MALF and the RBUF bytes `0 .. RLEN-1` alone.
CINIT writes RLEN, BITPOS, DEFICIT, TRUNC and MALF alone, and no byte of memory (42_nal.md R89, R91;
40_bitreader.md R77). -/
def Obligations.NalCommandsAndCinitFrame : Prop :=
  ∀ s t : State,
    (exec .findsc s = .next t →
      t = { s with scpos := t.scpos, result := t.result, nosc := t.nosc }
      ∧ ∀ (b : Buffer) (a : Nat), (t.buffer b).read a = (s.buffer b).read a)
    ∧ (exec .extract s = .next t →
      t = { s with rlen := t.rlen, bitpos := t.bitpos, deficit := t.deficit, nalhdr := t.nalhdr,
                   trunc := t.trunc, malf := t.malf, rbuf := t.rbuf }
      ∧ (∀ a, (t.buffer .ibuf).read a = (s.buffer .ibuf).read a)
      ∧ ∀ a, t.rlen.toNat ≤ a → (t.buffer .rbuf).read a = (s.buffer .rbuf).read a)
    ∧ (exec .cinit s = .next t →
      t = { s with rlen := t.rlen, bitpos := t.bitpos, deficit := t.deficit, trunc := t.trunc,
                   malf := t.malf }
      ∧ ∀ (b : Buffer) (a : Nat), (t.buffer b).read a = (s.buffer b).read a)

/-! ## Model faults -/

/-- An engine read of a byte whose written-mark is false is the model fault UNINIT (10_state.md R32): a cursor
command at a bit of an unwritten byte, FINDSC at an unwritten first byte, EXTRACT at an unwritten byte of
the unit before which every byte is written. -/
def Obligations.UnwrittenByteIsUninit : Prop :=
  ∀ s : State,
    (∀ i, isCursorCommand i = true → i.WellFormed → s.cursor < s.endBit →
      s.rbuf.read (s.cursor / 8) = none → exec i s = .fault (.uninit .rbuf (s.cursor / 8)))
    ∧ (s.larg0.toNat < s.lilen.toNat → s.ibuf.read s.larg0.toNat = none →
      exec .findsc s = .fault (.uninit .ibuf s.larg0.toNat))
    ∧ ∀ k < s.larg1.toNat, s.ibuf.WrittenIn s.larg0.toNat (s.larg0.toNat + k) →
      s.ibuf.read (s.larg0.toNat + k) = none →
      exec .extract s = .fault (.uninit .ibuf (s.larg0.toNat + k))

/-- An unwritten byte that a command comes to after written ones is UNINIT too (10_state.md R32): RDBITS at any of
its bits; RDUE and RDSE at any bit of the prefix and of the suffix; SKIPSL where RDSE would be, after the
deltas before; FINDSC at the first unwritten byte, if no start code ends before it. EXTRACT is in
`UnwrittenByteIsUninit`. SKIPSL's clause rests on the list's algorithm (log 15). -/
def Obligations.ReachedUnwrittenByteIsUninit : Prop :=
  ∀ s : State, s.CursorOk →
    (∀ n k : Nat, (Instr.rdbits n).WellFormed → k < n → s.cursor + k < s.endBit →
      (∀ j < k, (s.rbuf.read ((s.cursor + j) / 8)).isSome = true) →
      s.rbuf.read ((s.cursor + k) / 8) = none →
      exec (.rdbits n) s = .fault (.uninit .rbuf ((s.cursor + k) / 8)))
    ∧ (∀ lz ≤ 31, s.HasBits s.cursor (List.replicate lz false) → s.cursor + lz < s.endBit →
      s.rbuf.read ((s.cursor + lz) / 8) = none →
      ∀ i ∈ [Instr.rdue, .rdse], exec i s = .fault (.uninit .rbuf ((s.cursor + lz) / 8)))
    ∧ (∀ lz ≤ 31, s.HasBits s.cursor (List.replicate lz false ++ [true]) →
      ∀ k < lz, s.cursor + lz + 1 + k < s.endBit →
      (∀ j < k, (s.rbuf.read ((s.cursor + lz + 1 + j) / 8)).isSome = true) →
      s.rbuf.read ((s.cursor + lz + 1 + k) / 8) = none →
      ∀ i ∈ [Instr.rdue, .rdse], exec i s = .fault (.uninit .rbuf ((s.cursor + lz + 1 + k) / 8)))
    ∧ (∀ (size : ListSize) (ds : List Int) (f : Fault), ds.length < size.entries →
      (∀ k ≤ ds.length, (8 + (ds.take k).sum) % 256 ≠ 0) →
      (∀ d ∈ ds, -(2 ^ 31 - 1) ≤ d ∧ d ≤ 2 ^ 31 - 1) → s.HasBits s.cursor (ds.flatMap seCode) →
      exec .rdse { s with bitpos := zext32 (s.cursor + (ds.flatMap seCode).length) } = .fault f →
      exec (.skipsl size) s = .fault f)
    ∧ ∀ k : Nat, s.larg0.toNat ≤ k → k < s.lilen.toNat → s.ibuf.WrittenIn s.larg0.toNat k →
      s.ibuf.read k = none → (∀ q ≥ s.larg0.toNat, ∀ len : Nat, ¬IsStartCode s.ibuf k q len) →
      exec .findsc s = .fault (.uninit .ibuf k)

/-- A command ends in no fault but UNINIT, at a byte that is not written and that R44 lets it read: an RBUF
index below RLEN for a cursor command, an IBUF index in [LARG0, LILEN) for FINDSC and in
[LARG0, LARG0 + LARG1) for EXTRACT; CINIT never faults, and no command is refused (20_memory.md R44,
60_exceptions.md R100). -/
def Obligations.CommandsFaultOnlyOnUnwrittenBytes : Prop :=
  ∀ (s : State) (i : Instr),
    (∀ r, exec i s ≠ .refused r)
    ∧ ∀ f, exec i s = .fault f →
      ∃ b a, f = .uninit b a ∧ (s.buffer b).read a = none
        ∧ ((isCursorCommand i = true ∧ b = .rbuf ∧ a < s.rlen.toNat)
          ∨ (i = .findsc ∧ b = .ibuf ∧ s.larg0.toNat ≤ a ∧ a < s.lilen.toNat)
          ∨ (i = .extract ∧ b = .ibuf ∧ s.larg0.toNat ≤ a ∧ a < s.larg0.toNat + s.larg1.toNat))

/-- Every latched command completes in the engine's step, where no byte it may read is unwritten: the step
answers a next state with PENDING = 0 (70_reset_and_hazards.md R117). -/
def Obligations.EveryLatchedCommandCompletes : Prop :=
  ∀ (s : State) (i : Instr), s.Inv → s.EngineRuns i → s.CursorWritten →
    s.ibuf.WrittenIn s.larg0.toNat s.lilen.toNat →
    ∃ t, step s = .next t ∧ t.pending = false

/-! ## Rules of the whole machine -/

/-- A flag is cleared only by: a host write of 1 to its bit (ILL, OVR); the completion of CINIT or EXTRACT
(TRUNC, MALF); the completion of a FINDSC that finds a start code (NOSC); reset (60_exceptions.md R103). -/
def Obligations.FlagsAreClearedOnlyByTheirEvents : Prop :=
  ∀ s t : State, step s = .next t →
    ((s.trunc = true ∧ t.trunc = false) ∨ (s.malf = true ∧ t.malf = false) →
      s.ResetsNow ∨ s.EngineRuns .cinit ∨ s.EngineRuns .extract)
    ∧ (s.nosc = true → t.nosc = false →
      s.ResetsNow ∨ (s.EngineRuns .findsc ∧ t.result ≠ 0#32))
    ∧ (s.ill = true → t.ill = false →
      s.ResetsNow ∨ ∃ v : Word, s.HostDoes (.write (s.address 0x04) 32 v) ∧ v.getLsbD 4 = true)
    ∧ (s.ovr = true → t.ovr = false →
      s.ResetsNow ∨ ∃ v : Word, s.HostDoes (.write (s.address 0x04) 32 v) ∧ v.getLsbD 5 = true)

/-- A flag is set only by its own events (10_state.md R21): TRUNC by RDBITS, RDUE, RDSE or SKIPSL, MALF by RDUE,
RDSE or SKIPSL, NOSC by a FINDSC that finds no start code; ILL by a refused CMD write while BUSY = 0, OVR by a
CMD write while BUSY = 1, BUSY by an accepted one, and BUSY is cleared only by a completion or a reset. -/
def Obligations.FlagsAreSetOnlyByTheirEvents : Prop :=
  ∀ s t : State, step s = .next t →
    (s.trunc = false → t.trunc = true → ∃ i, s.EngineRuns i ∧ isCursorCommand i = true)
    ∧ (s.malf = false → t.malf = true →
      ∃ i, s.EngineRuns i ∧ isCursorCommand i = true ∧ ∀ n, i ≠ .rdbits n)
    ∧ (s.nosc = false → t.nosc = true → s.EngineRuns .findsc ∧ t.result = 0#32)
    ∧ (s.ill = false → t.ill = true →
      ∃ (w : Word) (r : IllReason), s.HostDoes (.write (s.address 0x00) 32 w) ∧ s.pending = false
        ∧ legal s.params w s.arg0.toNat s.arg1.toNat s.ilen.toNat = .error r)
    ∧ (s.ovr = false → t.ovr = true →
      ∃ w, s.HostDoes (.write (s.address 0x00) 32 w) ∧ s.pending = true)
    ∧ (s.pending = false → t.pending = true →
      ∃ (w : Word) (i : Instr), s.HostDoes (.write (s.address 0x00) 32 w)
        ∧ legal s.params w s.arg0.toNat s.arg1.toNat s.ilen.toNat = .ok i)
    ∧ (s.pending = true → t.pending = false → s.ResetsNow ∨ ∃ i, s.EngineRuns i)

/-- The host classifies a decode pass from the words it reads at STATUS and DEFICIT: MalformedCode if MALF
(bit 2) is 1, else TruncatedInput with DEFICIT if TRUNC (bit 1) is 1, else success; and BadStartCode exactly
where NOSC (bit 3) is 1 and it required a start code (60_exceptions.md R99). -/
def Obligations.HostClassifiesFromTheFlags : Prop :=
  ∀ s : State,
    s.verdict =
      (if (s.regRead .status).getLsbD 2 = true then Verdict.malformedCode
       else if (s.regRead .status).getLsbD 1 = true then
         .truncatedInput (s.regRead .deficit).toNat
       else .success)
    ∧ ∀ required : Bool, s.searchVerdict required = some .badStartCode ↔
        (required = true ∧ (s.regRead .status).getLsbD 3 = true)

/-- Who writes what: RESULT changes only at a completion of RDBITS, RDUE, RDSE, SKIPSL or FINDSC, RLEN at CINIT
or EXTRACT, BITPOS and DEFICIT at CINIT, EXTRACT or a command of the cursor, SCPOS at FINDSC, NALHDR and RBUF
from the engine's side at EXTRACT, IBUF never from the engine's side, ARG0, ARG1 and ILEN only by the host, the
latch only by a write to CMD; reset aside (10_state.md R22 to R31). STATUS is in `FlagsAreSetOnlyByTheirEvents`
and `FlagsAreClearedOnlyByTheirEvents`. -/
def Obligations.RegistersAreWrittenOnlyByTheirEvents : Prop :=
  ∀ s t : State, step s = .next t → ¬s.ResetsNow →
    (t.result ≠ s.result →
      ∃ i, s.EngineRuns i ∧ (isCursorCommand i = true ∨ i = .findsc))
    ∧ (t.rlen ≠ s.rlen → s.EngineRuns .cinit ∨ s.EngineRuns .extract)
    ∧ (t.scpos ≠ s.scpos → s.EngineRuns .findsc)
    ∧ (t.nalhdr ≠ s.nalhdr → s.EngineRuns .extract)
    ∧ (t.arg0 ≠ s.arg0 → ∃ v, s.HostDoes (.write (s.address 0x0C) 32 v))
    ∧ (t.arg1 ≠ s.arg1 → ∃ v, s.HostDoes (.write (s.address 0x10) 32 v))
    ∧ (t.ilen ≠ s.ilen → ∃ v, s.HostDoes (.write (s.address 0x14) 32 v))
    ∧ (t.rbuf ≠ s.rbuf → s.EngineRuns .extract
        ∨ ∃ a v, a < s.params.rbufSize ∧ s.HostDoes (.write (byteAddress s.params .rbuf a) 8 v))
    ∧ (t.ibuf ≠ s.ibuf →
        ∃ a v, a < s.params.ibufSize ∧ s.HostDoes (.write (byteAddress s.params .ibuf a) 8 v))
    ∧ (t.bitpos ≠ s.bitpos ∨ t.deficit ≠ s.deficit →
        ∃ i, s.EngineRuns i ∧ (isCursorCommand i = true ∨ i = .cinit ∨ i = .extract))
    ∧ (t.lcmd ≠ s.lcmd ∨ t.larg0 ≠ s.larg0 ∨ t.larg1 ≠ s.larg1 ∨ t.lilen ≠ s.lilen →
        ∃ w, s.HostDoes (.write (s.address 0x00) 32 w))

/-- Between two cursor initialisations BITPOS never decreases and DEFICIT never decreases: only a reset, CINIT
or EXTRACT moves either back (10_state.md R26, R27). -/
def Obligations.CursorNeverMovesBack : Prop :=
  ∀ s t : State, s.CursorOk → step s = .next t →
    ¬s.ResetsNow → ¬s.EngineRuns .cinit → ¬s.EngineRuns .extract →
    s.bitpos.toNat ≤ t.bitpos.toNat ∧ s.deficit.toNat ≤ t.deficit.toNat

/-- A pending command is not disturbed by the host: a host step while BUSY = 1 leaves PENDING, the latch, the
cursor, the flags TRUNC, MALF and NOSC and both buffers as they are (20_memory.md R55, 10_state.md R23). -/
def Obligations.PendingCommandIsUndisturbed : Prop :=
  ∀ s t : State, s.pending = true → s.HostMoves → step s = .next t →
    t = { s with arg0 := t.arg0, arg1 := t.arg1, ilen := t.ilen, ill := t.ill, ovr := t.ovr,
                 host := t.host, turns := t.turns, replies := t.replies, draws := t.draws }

/-- Steps of different instances commute, whichever instances they are (20_memory.md R54). -/
def Obligations.InstancesShareNothing : Prop :=
  ∀ (sys a ab : Platform) (j k : Nat), j ≠ k →
    sys.stepAt j = .next a → a.stepAt k = .next ab →
    ∃ b : Platform, sys.stepAt k = .next b ∧ b.stepAt j = .next ab
      ∧ a[k]? = sys[k]? ∧ b[j]? = sys[j]?
end

