-- ==== Sys2Proof/Laws/State.lean ====
section
/-!
SUPPORT. One lemma for each field of State and each named update, true by rfl: no later proof unfolds a
record update.
-/

namespace Sys2Proof.Machine

variable (s : State)

/-! ### `State.initCursor` -/

@[simp] theorem initCursor_result (len : Word) : (s.initCursor len).result = s.result := rfl
@[simp] theorem initCursor_arg0 (len : Word) : (s.initCursor len).arg0 = s.arg0 := rfl
@[simp] theorem initCursor_arg1 (len : Word) : (s.initCursor len).arg1 = s.arg1 := rfl
@[simp] theorem initCursor_ilen (len : Word) : (s.initCursor len).ilen = s.ilen := rfl
@[simp] theorem initCursor_rlen (len : Word) : (s.initCursor len).rlen = len := rfl
@[simp] theorem initCursor_bitpos (len : Word) : (s.initCursor len).bitpos = 0 := rfl
@[simp] theorem initCursor_deficit (len : Word) : (s.initCursor len).deficit = 0 := rfl
@[simp] theorem initCursor_scpos (len : Word) : (s.initCursor len).scpos = s.scpos := rfl
@[simp] theorem initCursor_nalhdr (len : Word) : (s.initCursor len).nalhdr = s.nalhdr := rfl
@[simp] theorem initCursor_trunc (len : Word) : (s.initCursor len).trunc = false := rfl
@[simp] theorem initCursor_malf (len : Word) : (s.initCursor len).malf = false := rfl
@[simp] theorem initCursor_nosc (len : Word) : (s.initCursor len).nosc = s.nosc := rfl
@[simp] theorem initCursor_ill (len : Word) : (s.initCursor len).ill = s.ill := rfl
@[simp] theorem initCursor_ovr (len : Word) : (s.initCursor len).ovr = s.ovr := rfl
@[simp] theorem initCursor_pending (len : Word) : (s.initCursor len).pending = s.pending := rfl
@[simp] theorem initCursor_lcmd (len : Word) : (s.initCursor len).lcmd = s.lcmd := rfl
@[simp] theorem initCursor_larg0 (len : Word) : (s.initCursor len).larg0 = s.larg0 := rfl
@[simp] theorem initCursor_larg1 (len : Word) : (s.initCursor len).larg1 = s.larg1 := rfl
@[simp] theorem initCursor_lilen (len : Word) : (s.initCursor len).lilen = s.lilen := rfl
@[simp] theorem initCursor_ibuf (len : Word) : (s.initCursor len).ibuf = s.ibuf := rfl
@[simp] theorem initCursor_rbuf (len : Word) : (s.initCursor len).rbuf = s.rbuf := rfl
@[simp] theorem initCursor_illReason (len : Word) : (s.initCursor len).illReason = s.illReason := rfl
@[simp] theorem initCursor_params (len : Word) : (s.initCursor len).params = s.params := rfl
@[simp] theorem initCursor_host (len : Word) : (s.initCursor len).host = s.host := rfl
@[simp] theorem initCursor_turns (len : Word) : (s.initCursor len).turns = s.turns := rfl
@[simp] theorem initCursor_replies (len : Word) : (s.initCursor len).replies = s.replies := rfl
@[simp] theorem initCursor_draws (len : Word) : (s.initCursor len).draws = s.draws := rfl

/-! ### `State.advance` -/

@[simp] theorem advance_result : (s.advance).result = s.result := rfl
@[simp] theorem advance_arg0 : (s.advance).arg0 = s.arg0 := rfl
@[simp] theorem advance_arg1 : (s.advance).arg1 = s.arg1 := rfl
@[simp] theorem advance_ilen : (s.advance).ilen = s.ilen := rfl
@[simp] theorem advance_rlen : (s.advance).rlen = s.rlen := rfl
@[simp] theorem advance_bitpos : (s.advance).bitpos = s.bitpos + 1 := rfl
@[simp] theorem advance_deficit : (s.advance).deficit = s.deficit := rfl
@[simp] theorem advance_scpos : (s.advance).scpos = s.scpos := rfl
@[simp] theorem advance_nalhdr : (s.advance).nalhdr = s.nalhdr := rfl
@[simp] theorem advance_trunc : (s.advance).trunc = s.trunc := rfl
@[simp] theorem advance_malf : (s.advance).malf = s.malf := rfl
@[simp] theorem advance_nosc : (s.advance).nosc = s.nosc := rfl
@[simp] theorem advance_ill : (s.advance).ill = s.ill := rfl
@[simp] theorem advance_ovr : (s.advance).ovr = s.ovr := rfl
@[simp] theorem advance_pending : (s.advance).pending = s.pending := rfl
@[simp] theorem advance_lcmd : (s.advance).lcmd = s.lcmd := rfl
@[simp] theorem advance_larg0 : (s.advance).larg0 = s.larg0 := rfl
@[simp] theorem advance_larg1 : (s.advance).larg1 = s.larg1 := rfl
@[simp] theorem advance_lilen : (s.advance).lilen = s.lilen := rfl
@[simp] theorem advance_ibuf : (s.advance).ibuf = s.ibuf := rfl
@[simp] theorem advance_rbuf : (s.advance).rbuf = s.rbuf := rfl
@[simp] theorem advance_illReason : (s.advance).illReason = s.illReason := rfl
@[simp] theorem advance_params : (s.advance).params = s.params := rfl
@[simp] theorem advance_host : (s.advance).host = s.host := rfl
@[simp] theorem advance_turns : (s.advance).turns = s.turns := rfl
@[simp] theorem advance_replies : (s.advance).replies = s.replies := rfl
@[simp] theorem advance_draws : (s.advance).draws = s.draws := rfl

/-! ### `State.pastEnd` -/

@[simp] theorem pastEnd_result : (s.pastEnd).result = s.result := rfl
@[simp] theorem pastEnd_arg0 : (s.pastEnd).arg0 = s.arg0 := rfl
@[simp] theorem pastEnd_arg1 : (s.pastEnd).arg1 = s.arg1 := rfl
@[simp] theorem pastEnd_ilen : (s.pastEnd).ilen = s.ilen := rfl
@[simp] theorem pastEnd_rlen : (s.pastEnd).rlen = s.rlen := rfl
@[simp] theorem pastEnd_bitpos : (s.pastEnd).bitpos = s.bitpos := rfl
@[simp] theorem pastEnd_deficit : (s.pastEnd).deficit = deficitSucc s.deficit := rfl
@[simp] theorem pastEnd_scpos : (s.pastEnd).scpos = s.scpos := rfl
@[simp] theorem pastEnd_nalhdr : (s.pastEnd).nalhdr = s.nalhdr := rfl
@[simp] theorem pastEnd_trunc : (s.pastEnd).trunc = true := rfl
@[simp] theorem pastEnd_malf : (s.pastEnd).malf = s.malf := rfl
@[simp] theorem pastEnd_nosc : (s.pastEnd).nosc = s.nosc := rfl
@[simp] theorem pastEnd_ill : (s.pastEnd).ill = s.ill := rfl
@[simp] theorem pastEnd_ovr : (s.pastEnd).ovr = s.ovr := rfl
@[simp] theorem pastEnd_pending : (s.pastEnd).pending = s.pending := rfl
@[simp] theorem pastEnd_lcmd : (s.pastEnd).lcmd = s.lcmd := rfl
@[simp] theorem pastEnd_larg0 : (s.pastEnd).larg0 = s.larg0 := rfl
@[simp] theorem pastEnd_larg1 : (s.pastEnd).larg1 = s.larg1 := rfl
@[simp] theorem pastEnd_lilen : (s.pastEnd).lilen = s.lilen := rfl
@[simp] theorem pastEnd_ibuf : (s.pastEnd).ibuf = s.ibuf := rfl
@[simp] theorem pastEnd_rbuf : (s.pastEnd).rbuf = s.rbuf := rfl
@[simp] theorem pastEnd_illReason : (s.pastEnd).illReason = s.illReason := rfl
@[simp] theorem pastEnd_params : (s.pastEnd).params = s.params := rfl
@[simp] theorem pastEnd_host : (s.pastEnd).host = s.host := rfl
@[simp] theorem pastEnd_turns : (s.pastEnd).turns = s.turns := rfl
@[simp] theorem pastEnd_replies : (s.pastEnd).replies = s.replies := rfl
@[simp] theorem pastEnd_draws : (s.pastEnd).draws = s.draws := rfl

/-! ### `State.flagMalf` -/

@[simp] theorem flagMalf_result : (s.flagMalf).result = s.result := rfl
@[simp] theorem flagMalf_arg0 : (s.flagMalf).arg0 = s.arg0 := rfl
@[simp] theorem flagMalf_arg1 : (s.flagMalf).arg1 = s.arg1 := rfl
@[simp] theorem flagMalf_ilen : (s.flagMalf).ilen = s.ilen := rfl
@[simp] theorem flagMalf_rlen : (s.flagMalf).rlen = s.rlen := rfl
@[simp] theorem flagMalf_bitpos : (s.flagMalf).bitpos = s.bitpos := rfl
@[simp] theorem flagMalf_deficit : (s.flagMalf).deficit = s.deficit := rfl
@[simp] theorem flagMalf_scpos : (s.flagMalf).scpos = s.scpos := rfl
@[simp] theorem flagMalf_nalhdr : (s.flagMalf).nalhdr = s.nalhdr := rfl
@[simp] theorem flagMalf_trunc : (s.flagMalf).trunc = s.trunc := rfl
@[simp] theorem flagMalf_malf : (s.flagMalf).malf = true := rfl
@[simp] theorem flagMalf_nosc : (s.flagMalf).nosc = s.nosc := rfl
@[simp] theorem flagMalf_ill : (s.flagMalf).ill = s.ill := rfl
@[simp] theorem flagMalf_ovr : (s.flagMalf).ovr = s.ovr := rfl
@[simp] theorem flagMalf_pending : (s.flagMalf).pending = s.pending := rfl
@[simp] theorem flagMalf_lcmd : (s.flagMalf).lcmd = s.lcmd := rfl
@[simp] theorem flagMalf_larg0 : (s.flagMalf).larg0 = s.larg0 := rfl
@[simp] theorem flagMalf_larg1 : (s.flagMalf).larg1 = s.larg1 := rfl
@[simp] theorem flagMalf_lilen : (s.flagMalf).lilen = s.lilen := rfl
@[simp] theorem flagMalf_ibuf : (s.flagMalf).ibuf = s.ibuf := rfl
@[simp] theorem flagMalf_rbuf : (s.flagMalf).rbuf = s.rbuf := rfl
@[simp] theorem flagMalf_illReason : (s.flagMalf).illReason = s.illReason := rfl
@[simp] theorem flagMalf_params : (s.flagMalf).params = s.params := rfl
@[simp] theorem flagMalf_host : (s.flagMalf).host = s.host := rfl
@[simp] theorem flagMalf_turns : (s.flagMalf).turns = s.turns := rfl
@[simp] theorem flagMalf_replies : (s.flagMalf).replies = s.replies := rfl
@[simp] theorem flagMalf_draws : (s.flagMalf).draws = s.draws := rfl

/-! ### `State.raiseIll` -/

@[simp] theorem raiseIll_result (r : IllReason) : (s.raiseIll r).result = s.result := rfl
@[simp] theorem raiseIll_arg0 (r : IllReason) : (s.raiseIll r).arg0 = s.arg0 := rfl
@[simp] theorem raiseIll_arg1 (r : IllReason) : (s.raiseIll r).arg1 = s.arg1 := rfl
@[simp] theorem raiseIll_ilen (r : IllReason) : (s.raiseIll r).ilen = s.ilen := rfl
@[simp] theorem raiseIll_rlen (r : IllReason) : (s.raiseIll r).rlen = s.rlen := rfl
@[simp] theorem raiseIll_bitpos (r : IllReason) : (s.raiseIll r).bitpos = s.bitpos := rfl
@[simp] theorem raiseIll_deficit (r : IllReason) : (s.raiseIll r).deficit = s.deficit := rfl
@[simp] theorem raiseIll_scpos (r : IllReason) : (s.raiseIll r).scpos = s.scpos := rfl
@[simp] theorem raiseIll_nalhdr (r : IllReason) : (s.raiseIll r).nalhdr = s.nalhdr := rfl
@[simp] theorem raiseIll_trunc (r : IllReason) : (s.raiseIll r).trunc = s.trunc := rfl
@[simp] theorem raiseIll_malf (r : IllReason) : (s.raiseIll r).malf = s.malf := rfl
@[simp] theorem raiseIll_nosc (r : IllReason) : (s.raiseIll r).nosc = s.nosc := rfl
@[simp] theorem raiseIll_ill (r : IllReason) : (s.raiseIll r).ill = true := rfl
@[simp] theorem raiseIll_ovr (r : IllReason) : (s.raiseIll r).ovr = s.ovr := rfl
@[simp] theorem raiseIll_pending (r : IllReason) : (s.raiseIll r).pending = s.pending := rfl
@[simp] theorem raiseIll_lcmd (r : IllReason) : (s.raiseIll r).lcmd = s.lcmd := rfl
@[simp] theorem raiseIll_larg0 (r : IllReason) : (s.raiseIll r).larg0 = s.larg0 := rfl
@[simp] theorem raiseIll_larg1 (r : IllReason) : (s.raiseIll r).larg1 = s.larg1 := rfl
@[simp] theorem raiseIll_lilen (r : IllReason) : (s.raiseIll r).lilen = s.lilen := rfl
@[simp] theorem raiseIll_ibuf (r : IllReason) : (s.raiseIll r).ibuf = s.ibuf := rfl
@[simp] theorem raiseIll_rbuf (r : IllReason) : (s.raiseIll r).rbuf = s.rbuf := rfl
@[simp] theorem raiseIll_illReason (r : IllReason) : (s.raiseIll r).illReason = some r := rfl
@[simp] theorem raiseIll_params (r : IllReason) : (s.raiseIll r).params = s.params := rfl
@[simp] theorem raiseIll_host (r : IllReason) : (s.raiseIll r).host = s.host := rfl
@[simp] theorem raiseIll_turns (r : IllReason) : (s.raiseIll r).turns = s.turns := rfl
@[simp] theorem raiseIll_replies (r : IllReason) : (s.raiseIll r).replies = s.replies := rfl
@[simp] theorem raiseIll_draws (r : IllReason) : (s.raiseIll r).draws = s.draws := rfl

/-! ### `State.raiseOvr` -/

@[simp] theorem raiseOvr_result : (s.raiseOvr).result = s.result := rfl
@[simp] theorem raiseOvr_arg0 : (s.raiseOvr).arg0 = s.arg0 := rfl
@[simp] theorem raiseOvr_arg1 : (s.raiseOvr).arg1 = s.arg1 := rfl
@[simp] theorem raiseOvr_ilen : (s.raiseOvr).ilen = s.ilen := rfl
@[simp] theorem raiseOvr_rlen : (s.raiseOvr).rlen = s.rlen := rfl
@[simp] theorem raiseOvr_bitpos : (s.raiseOvr).bitpos = s.bitpos := rfl
@[simp] theorem raiseOvr_deficit : (s.raiseOvr).deficit = s.deficit := rfl
@[simp] theorem raiseOvr_scpos : (s.raiseOvr).scpos = s.scpos := rfl
@[simp] theorem raiseOvr_nalhdr : (s.raiseOvr).nalhdr = s.nalhdr := rfl
@[simp] theorem raiseOvr_trunc : (s.raiseOvr).trunc = s.trunc := rfl
@[simp] theorem raiseOvr_malf : (s.raiseOvr).malf = s.malf := rfl
@[simp] theorem raiseOvr_nosc : (s.raiseOvr).nosc = s.nosc := rfl
@[simp] theorem raiseOvr_ill : (s.raiseOvr).ill = s.ill := rfl
@[simp] theorem raiseOvr_ovr : (s.raiseOvr).ovr = true := rfl
@[simp] theorem raiseOvr_pending : (s.raiseOvr).pending = s.pending := rfl
@[simp] theorem raiseOvr_lcmd : (s.raiseOvr).lcmd = s.lcmd := rfl
@[simp] theorem raiseOvr_larg0 : (s.raiseOvr).larg0 = s.larg0 := rfl
@[simp] theorem raiseOvr_larg1 : (s.raiseOvr).larg1 = s.larg1 := rfl
@[simp] theorem raiseOvr_lilen : (s.raiseOvr).lilen = s.lilen := rfl
@[simp] theorem raiseOvr_ibuf : (s.raiseOvr).ibuf = s.ibuf := rfl
@[simp] theorem raiseOvr_rbuf : (s.raiseOvr).rbuf = s.rbuf := rfl
@[simp] theorem raiseOvr_illReason : (s.raiseOvr).illReason = s.illReason := rfl
@[simp] theorem raiseOvr_params : (s.raiseOvr).params = s.params := rfl
@[simp] theorem raiseOvr_host : (s.raiseOvr).host = s.host := rfl
@[simp] theorem raiseOvr_turns : (s.raiseOvr).turns = s.turns := rfl
@[simp] theorem raiseOvr_replies : (s.raiseOvr).replies = s.replies := rfl
@[simp] theorem raiseOvr_draws : (s.raiseOvr).draws = s.draws := rfl

/-! ### `State.latch` -/

@[simp] theorem latch_result (w : Word) : (s.latch w).result = s.result := rfl
@[simp] theorem latch_arg0 (w : Word) : (s.latch w).arg0 = s.arg0 := rfl
@[simp] theorem latch_arg1 (w : Word) : (s.latch w).arg1 = s.arg1 := rfl
@[simp] theorem latch_ilen (w : Word) : (s.latch w).ilen = s.ilen := rfl
@[simp] theorem latch_rlen (w : Word) : (s.latch w).rlen = s.rlen := rfl
@[simp] theorem latch_bitpos (w : Word) : (s.latch w).bitpos = s.bitpos := rfl
@[simp] theorem latch_deficit (w : Word) : (s.latch w).deficit = s.deficit := rfl
@[simp] theorem latch_scpos (w : Word) : (s.latch w).scpos = s.scpos := rfl
@[simp] theorem latch_nalhdr (w : Word) : (s.latch w).nalhdr = s.nalhdr := rfl
@[simp] theorem latch_trunc (w : Word) : (s.latch w).trunc = s.trunc := rfl
@[simp] theorem latch_malf (w : Word) : (s.latch w).malf = s.malf := rfl
@[simp] theorem latch_nosc (w : Word) : (s.latch w).nosc = s.nosc := rfl
@[simp] theorem latch_ill (w : Word) : (s.latch w).ill = s.ill := rfl
@[simp] theorem latch_ovr (w : Word) : (s.latch w).ovr = s.ovr := rfl
@[simp] theorem latch_pending (w : Word) : (s.latch w).pending = true := rfl
@[simp] theorem latch_lcmd (w : Word) : (s.latch w).lcmd = w := rfl
@[simp] theorem latch_larg0 (w : Word) : (s.latch w).larg0 = s.arg0 := rfl
@[simp] theorem latch_larg1 (w : Word) : (s.latch w).larg1 = s.arg1 := rfl
@[simp] theorem latch_lilen (w : Word) : (s.latch w).lilen = s.ilen.setWidth 25 := rfl
@[simp] theorem latch_ibuf (w : Word) : (s.latch w).ibuf = s.ibuf := rfl
@[simp] theorem latch_rbuf (w : Word) : (s.latch w).rbuf = s.rbuf := rfl
@[simp] theorem latch_illReason (w : Word) : (s.latch w).illReason = s.illReason := rfl
@[simp] theorem latch_params (w : Word) : (s.latch w).params = s.params := rfl
@[simp] theorem latch_host (w : Word) : (s.latch w).host = s.host := rfl
@[simp] theorem latch_turns (w : Word) : (s.latch w).turns = s.turns := rfl
@[simp] theorem latch_replies (w : Word) : (s.latch w).replies = s.replies := rfl
@[simp] theorem latch_draws (w : Word) : (s.latch w).draws = s.draws := rfl

/-! ### `State.tick` -/

@[simp] theorem tick_result : (s.tick).result = s.result := rfl
@[simp] theorem tick_arg0 : (s.tick).arg0 = s.arg0 := rfl
@[simp] theorem tick_arg1 : (s.tick).arg1 = s.arg1 := rfl
@[simp] theorem tick_ilen : (s.tick).ilen = s.ilen := rfl
@[simp] theorem tick_rlen : (s.tick).rlen = s.rlen := rfl
@[simp] theorem tick_bitpos : (s.tick).bitpos = s.bitpos := rfl
@[simp] theorem tick_deficit : (s.tick).deficit = s.deficit := rfl
@[simp] theorem tick_scpos : (s.tick).scpos = s.scpos := rfl
@[simp] theorem tick_nalhdr : (s.tick).nalhdr = s.nalhdr := rfl
@[simp] theorem tick_trunc : (s.tick).trunc = s.trunc := rfl
@[simp] theorem tick_malf : (s.tick).malf = s.malf := rfl
@[simp] theorem tick_nosc : (s.tick).nosc = s.nosc := rfl
@[simp] theorem tick_ill : (s.tick).ill = s.ill := rfl
@[simp] theorem tick_ovr : (s.tick).ovr = s.ovr := rfl
@[simp] theorem tick_pending : (s.tick).pending = s.pending := rfl
@[simp] theorem tick_lcmd : (s.tick).lcmd = s.lcmd := rfl
@[simp] theorem tick_larg0 : (s.tick).larg0 = s.larg0 := rfl
@[simp] theorem tick_larg1 : (s.tick).larg1 = s.larg1 := rfl
@[simp] theorem tick_lilen : (s.tick).lilen = s.lilen := rfl
@[simp] theorem tick_ibuf : (s.tick).ibuf = s.ibuf := rfl
@[simp] theorem tick_rbuf : (s.tick).rbuf = s.rbuf := rfl
@[simp] theorem tick_illReason : (s.tick).illReason = s.illReason := rfl
@[simp] theorem tick_params : (s.tick).params = s.params := rfl
@[simp] theorem tick_host : (s.tick).host = s.host := rfl
@[simp] theorem tick_turns : (s.tick).turns = s.turns := rfl
@[simp] theorem tick_replies : (s.tick).replies = s.replies := rfl
@[simp] theorem tick_draws : (s.tick).draws = s.draws + 1 := rfl

/-! ### `State.complete` -/

@[simp] theorem complete_result : (s.complete).result = s.result := rfl
@[simp] theorem complete_arg0 : (s.complete).arg0 = s.arg0 := rfl
@[simp] theorem complete_arg1 : (s.complete).arg1 = s.arg1 := rfl
@[simp] theorem complete_ilen : (s.complete).ilen = s.ilen := rfl
@[simp] theorem complete_rlen : (s.complete).rlen = s.rlen := rfl
@[simp] theorem complete_bitpos : (s.complete).bitpos = s.bitpos := rfl
@[simp] theorem complete_deficit : (s.complete).deficit = s.deficit := rfl
@[simp] theorem complete_scpos : (s.complete).scpos = s.scpos := rfl
@[simp] theorem complete_nalhdr : (s.complete).nalhdr = s.nalhdr := rfl
@[simp] theorem complete_trunc : (s.complete).trunc = s.trunc := rfl
@[simp] theorem complete_malf : (s.complete).malf = s.malf := rfl
@[simp] theorem complete_nosc : (s.complete).nosc = s.nosc := rfl
@[simp] theorem complete_ill : (s.complete).ill = s.ill := rfl
@[simp] theorem complete_ovr : (s.complete).ovr = s.ovr := rfl
@[simp] theorem complete_pending : (s.complete).pending = false := rfl
@[simp] theorem complete_lcmd : (s.complete).lcmd = s.lcmd := rfl
@[simp] theorem complete_larg0 : (s.complete).larg0 = s.larg0 := rfl
@[simp] theorem complete_larg1 : (s.complete).larg1 = s.larg1 := rfl
@[simp] theorem complete_lilen : (s.complete).lilen = s.lilen := rfl
@[simp] theorem complete_ibuf : (s.complete).ibuf = s.ibuf := rfl
@[simp] theorem complete_rbuf : (s.complete).rbuf = s.rbuf := rfl
@[simp] theorem complete_illReason : (s.complete).illReason = s.illReason := rfl
@[simp] theorem complete_params : (s.complete).params = s.params := rfl
@[simp] theorem complete_host : (s.complete).host = s.host := rfl
@[simp] theorem complete_turns : (s.complete).turns = s.turns := rfl
@[simp] theorem complete_replies : (s.complete).replies = s.replies := rfl
@[simp] theorem complete_draws : (s.complete).draws = s.draws + 1 := rfl

/-! ### `State.reply` -/

@[simp] theorem reply_result (r : Reply) : (s.reply r).result = s.result := rfl
@[simp] theorem reply_arg0 (r : Reply) : (s.reply r).arg0 = s.arg0 := rfl
@[simp] theorem reply_arg1 (r : Reply) : (s.reply r).arg1 = s.arg1 := rfl
@[simp] theorem reply_ilen (r : Reply) : (s.reply r).ilen = s.ilen := rfl
@[simp] theorem reply_rlen (r : Reply) : (s.reply r).rlen = s.rlen := rfl
@[simp] theorem reply_bitpos (r : Reply) : (s.reply r).bitpos = s.bitpos := rfl
@[simp] theorem reply_deficit (r : Reply) : (s.reply r).deficit = s.deficit := rfl
@[simp] theorem reply_scpos (r : Reply) : (s.reply r).scpos = s.scpos := rfl
@[simp] theorem reply_nalhdr (r : Reply) : (s.reply r).nalhdr = s.nalhdr := rfl
@[simp] theorem reply_trunc (r : Reply) : (s.reply r).trunc = s.trunc := rfl
@[simp] theorem reply_malf (r : Reply) : (s.reply r).malf = s.malf := rfl
@[simp] theorem reply_nosc (r : Reply) : (s.reply r).nosc = s.nosc := rfl
@[simp] theorem reply_ill (r : Reply) : (s.reply r).ill = s.ill := rfl
@[simp] theorem reply_ovr (r : Reply) : (s.reply r).ovr = s.ovr := rfl
@[simp] theorem reply_pending (r : Reply) : (s.reply r).pending = s.pending := rfl
@[simp] theorem reply_lcmd (r : Reply) : (s.reply r).lcmd = s.lcmd := rfl
@[simp] theorem reply_larg0 (r : Reply) : (s.reply r).larg0 = s.larg0 := rfl
@[simp] theorem reply_larg1 (r : Reply) : (s.reply r).larg1 = s.larg1 := rfl
@[simp] theorem reply_lilen (r : Reply) : (s.reply r).lilen = s.lilen := rfl
@[simp] theorem reply_ibuf (r : Reply) : (s.reply r).ibuf = s.ibuf := rfl
@[simp] theorem reply_rbuf (r : Reply) : (s.reply r).rbuf = s.rbuf := rfl
@[simp] theorem reply_illReason (r : Reply) : (s.reply r).illReason = s.illReason := rfl
@[simp] theorem reply_params (r : Reply) : (s.reply r).params = s.params := rfl
@[simp] theorem reply_host (r : Reply) : (s.reply r).host = s.host := rfl
@[simp] theorem reply_turns (r : Reply) : (s.reply r).turns = s.turns := rfl
@[simp] theorem reply_replies (r : Reply) : (s.reply r).replies = r :: s.replies := rfl
@[simp] theorem reply_draws (r : Reply) : (s.reply r).draws = s.draws := rfl

/-! ### `State.statusWrite` -/

@[simp] theorem statusWrite_result (v : Word) : (s.statusWrite v).result = s.result := rfl
@[simp] theorem statusWrite_arg0 (v : Word) : (s.statusWrite v).arg0 = s.arg0 := rfl
@[simp] theorem statusWrite_arg1 (v : Word) : (s.statusWrite v).arg1 = s.arg1 := rfl
@[simp] theorem statusWrite_ilen (v : Word) : (s.statusWrite v).ilen = s.ilen := rfl
@[simp] theorem statusWrite_rlen (v : Word) : (s.statusWrite v).rlen = s.rlen := rfl
@[simp] theorem statusWrite_bitpos (v : Word) : (s.statusWrite v).bitpos = s.bitpos := rfl
@[simp] theorem statusWrite_deficit (v : Word) : (s.statusWrite v).deficit = s.deficit := rfl
@[simp] theorem statusWrite_scpos (v : Word) : (s.statusWrite v).scpos = s.scpos := rfl
@[simp] theorem statusWrite_nalhdr (v : Word) : (s.statusWrite v).nalhdr = s.nalhdr := rfl
@[simp] theorem statusWrite_trunc (v : Word) : (s.statusWrite v).trunc = s.trunc := rfl
@[simp] theorem statusWrite_malf (v : Word) : (s.statusWrite v).malf = s.malf := rfl
@[simp] theorem statusWrite_nosc (v : Word) : (s.statusWrite v).nosc = s.nosc := rfl
@[simp] theorem statusWrite_ill (v : Word) : (s.statusWrite v).ill = (s.ill && !v.getLsbD 4) := rfl
@[simp] theorem statusWrite_ovr (v : Word) : (s.statusWrite v).ovr = (s.ovr && !v.getLsbD 5) := rfl
@[simp] theorem statusWrite_pending (v : Word) : (s.statusWrite v).pending = s.pending := rfl
@[simp] theorem statusWrite_lcmd (v : Word) : (s.statusWrite v).lcmd = s.lcmd := rfl
@[simp] theorem statusWrite_larg0 (v : Word) : (s.statusWrite v).larg0 = s.larg0 := rfl
@[simp] theorem statusWrite_larg1 (v : Word) : (s.statusWrite v).larg1 = s.larg1 := rfl
@[simp] theorem statusWrite_lilen (v : Word) : (s.statusWrite v).lilen = s.lilen := rfl
@[simp] theorem statusWrite_ibuf (v : Word) : (s.statusWrite v).ibuf = s.ibuf := rfl
@[simp] theorem statusWrite_rbuf (v : Word) : (s.statusWrite v).rbuf = s.rbuf := rfl
@[simp] theorem statusWrite_illReason (v : Word) : (s.statusWrite v).illReason = s.illReason := rfl
@[simp] theorem statusWrite_params (v : Word) : (s.statusWrite v).params = s.params := rfl
@[simp] theorem statusWrite_host (v : Word) : (s.statusWrite v).host = s.host := rfl
@[simp] theorem statusWrite_turns (v : Word) : (s.statusWrite v).turns = s.turns := rfl
@[simp] theorem statusWrite_replies (v : Word) : (s.statusWrite v).replies = s.replies := rfl
@[simp] theorem statusWrite_draws (v : Word) : (s.statusWrite v).draws = s.draws := rfl

/-! ### `State.place` -/

@[simp] theorem place_result (w : Word) : (s.place w).result = s.result := rfl
@[simp] theorem place_arg0 (w : Word) : (s.place w).arg0 = s.arg0 := rfl
@[simp] theorem place_arg1 (w : Word) : (s.place w).arg1 = s.arg1 := rfl
@[simp] theorem place_ilen (w : Word) : (s.place w).ilen = s.ilen := rfl
@[simp] theorem place_rlen (w : Word) : (s.place w).rlen = s.rlen := rfl
@[simp] theorem place_bitpos (w : Word) : (s.place w).bitpos = s.bitpos := rfl
@[simp] theorem place_deficit (w : Word) : (s.place w).deficit = s.deficit := rfl
@[simp] theorem place_scpos (w : Word) : (s.place w).scpos = s.scpos := rfl
@[simp] theorem place_nalhdr (w : Word) : (s.place w).nalhdr = s.nalhdr := rfl
@[simp] theorem place_trunc (w : Word) : (s.place w).trunc = s.trunc := rfl
@[simp] theorem place_malf (w : Word) : (s.place w).malf = s.malf := rfl
@[simp] theorem place_nosc (w : Word) : (s.place w).nosc = s.nosc := rfl
@[simp] theorem place_ill (w : Word) : (s.place w).ill = s.ill := rfl
@[simp] theorem place_ovr (w : Word) : (s.place w).ovr = s.ovr := rfl
@[simp] theorem place_pending (w : Word) : (s.place w).pending = true := rfl
@[simp] theorem place_lcmd (w : Word) : (s.place w).lcmd = w := rfl
@[simp] theorem place_larg0 (w : Word) : (s.place w).larg0 = s.arg0 := rfl
@[simp] theorem place_larg1 (w : Word) : (s.place w).larg1 = s.arg1 := rfl
@[simp] theorem place_lilen (w : Word) : (s.place w).lilen = s.ilen.setWidth 25 := rfl
@[simp] theorem place_ibuf (w : Word) : (s.place w).ibuf = s.ibuf := rfl
@[simp] theorem place_rbuf (w : Word) : (s.place w).rbuf = s.rbuf := rfl
@[simp] theorem place_illReason (w : Word) : (s.place w).illReason = s.illReason := rfl
@[simp] theorem place_params (w : Word) : (s.place w).params = s.params := rfl
@[simp] theorem place_host (w : Word) : (s.place w).host = s.host := rfl
@[simp] theorem place_turns (w : Word) : (s.place w).turns = .engine :: s.turns := rfl
@[simp] theorem place_replies (w : Word) : (s.place w).replies = s.replies := rfl
@[simp] theorem place_draws (w : Word) : (s.place w).draws = s.draws := rfl

/-! ### `State.afterHead` -/

@[simp] theorem afterHead_result : (s.afterHead).result = s.result := rfl
@[simp] theorem afterHead_arg0 : (s.afterHead).arg0 = s.arg0 := rfl
@[simp] theorem afterHead_arg1 : (s.afterHead).arg1 = s.arg1 := rfl
@[simp] theorem afterHead_ilen : (s.afterHead).ilen = s.ilen := rfl
@[simp] theorem afterHead_rlen : (s.afterHead).rlen = s.rlen := rfl
@[simp] theorem afterHead_bitpos : (s.afterHead).bitpos = s.bitpos := rfl
@[simp] theorem afterHead_deficit : (s.afterHead).deficit = s.deficit := rfl
@[simp] theorem afterHead_scpos : (s.afterHead).scpos = s.scpos := rfl
@[simp] theorem afterHead_nalhdr : (s.afterHead).nalhdr = s.nalhdr := rfl
@[simp] theorem afterHead_trunc : (s.afterHead).trunc = s.trunc := rfl
@[simp] theorem afterHead_malf : (s.afterHead).malf = s.malf := rfl
@[simp] theorem afterHead_nosc : (s.afterHead).nosc = s.nosc := rfl
@[simp] theorem afterHead_ill : (s.afterHead).ill = s.ill := rfl
@[simp] theorem afterHead_ovr : (s.afterHead).ovr = s.ovr := rfl
@[simp] theorem afterHead_pending : (s.afterHead).pending = s.pending := rfl
@[simp] theorem afterHead_lcmd : (s.afterHead).lcmd = s.lcmd := rfl
@[simp] theorem afterHead_larg0 : (s.afterHead).larg0 = s.larg0 := rfl
@[simp] theorem afterHead_larg1 : (s.afterHead).larg1 = s.larg1 := rfl
@[simp] theorem afterHead_lilen : (s.afterHead).lilen = s.lilen := rfl
@[simp] theorem afterHead_ibuf : (s.afterHead).ibuf = s.ibuf := rfl
@[simp] theorem afterHead_rbuf : (s.afterHead).rbuf = s.rbuf := rfl
@[simp] theorem afterHead_illReason : (s.afterHead).illReason = s.illReason := rfl
@[simp] theorem afterHead_params : (s.afterHead).params = s.params := rfl
@[simp] theorem afterHead_host : (s.afterHead).host = s.host.tail := rfl
@[simp] theorem afterHead_turns : (s.afterHead).turns = s.turns.tail := rfl
@[simp] theorem afterHead_replies : (s.afterHead).replies = s.replies := rfl
@[simp] theorem afterHead_draws : (s.afterHead).draws = s.draws := rfl

/-! ### `resetTurn` -/

@[simp] theorem resetTurn_result : (resetTurn s).result = 0 := rfl
@[simp] theorem resetTurn_arg0 : (resetTurn s).arg0 = 0 := rfl
@[simp] theorem resetTurn_arg1 : (resetTurn s).arg1 = 0 := rfl
@[simp] theorem resetTurn_ilen : (resetTurn s).ilen = 0 := rfl
@[simp] theorem resetTurn_rlen : (resetTurn s).rlen = 0 := rfl
@[simp] theorem resetTurn_bitpos : (resetTurn s).bitpos = 0 := rfl
@[simp] theorem resetTurn_deficit : (resetTurn s).deficit = 0 := rfl
@[simp] theorem resetTurn_scpos : (resetTurn s).scpos = 0 := rfl
@[simp] theorem resetTurn_nalhdr : (resetTurn s).nalhdr = 0 := rfl
@[simp] theorem resetTurn_trunc : (resetTurn s).trunc = false := rfl
@[simp] theorem resetTurn_malf : (resetTurn s).malf = false := rfl
@[simp] theorem resetTurn_nosc : (resetTurn s).nosc = false := rfl
@[simp] theorem resetTurn_ill : (resetTurn s).ill = false := rfl
@[simp] theorem resetTurn_ovr : (resetTurn s).ovr = false := rfl
@[simp] theorem resetTurn_pending : (resetTurn s).pending = false := rfl
@[simp] theorem resetTurn_lcmd : (resetTurn s).lcmd = 0 := rfl
@[simp] theorem resetTurn_larg0 : (resetTurn s).larg0 = 0 := rfl
@[simp] theorem resetTurn_larg1 : (resetTurn s).larg1 = 0 := rfl
@[simp] theorem resetTurn_lilen : (resetTurn s).lilen = 0 := rfl
@[simp] theorem resetTurn_ibuf : (resetTurn s).ibuf = [] := rfl
@[simp] theorem resetTurn_rbuf : (resetTurn s).rbuf = [] := rfl
@[simp] theorem resetTurn_illReason : (resetTurn s).illReason = none := rfl
@[simp] theorem resetTurn_params : (resetTurn s).params = s.params := rfl
@[simp] theorem resetTurn_host : (resetTurn s).host = s.host := rfl
@[simp] theorem resetTurn_turns : (resetTurn s).turns = s.turns := rfl
@[simp] theorem resetTurn_replies : (resetTurn s).replies = s.replies := rfl
@[simp] theorem resetTurn_draws : (resetTurn s).draws = s.draws + 1 := rfl

end Sys2Proof.Machine
end

