-- ==== Sys2Proof/Laws/Memory.lean ====
section
/-!
SUPPORT. The laws of a byte buffer: a read after a write, the canonical form kept, the bounds kept, and what
an engine read can answer.
-/

namespace Sys2Proof.Machine

theorem Memory.read_write_same (m : Memory) (a : Nat) (v : Byte) : (m.write a v).read a = some v := by
  induction m with
  | nil => simp [Memory.write, Memory.read]
  | cons c m ih =>
    obtain ⟨k, b⟩ := c
    simp only [Memory.write]
    split
    · simp [Memory.read]
    · split
      · simp [Memory.read]
      · simp [Memory.read, *]

theorem Memory.read_write_other (m : Memory) {a c : Nat} (v : Byte) (h : c ≠ a) :
    (m.write a v).read c = m.read c := by
  induction m with
  | nil => simp [Memory.write, Memory.read, h]
  | cons d m ih =>
    obtain ⟨k, b⟩ := d
    simp only [Memory.write]
    split
    · simp [Memory.read, h]
    · split
      · subst_vars; simp [Memory.read, h]
      · simp [Memory.read, ih]

theorem Memory.read_write (m : Memory) (a c : Nat) (v : Byte) :
    (m.write a v).read c = if c = a then some v else m.read c := by
  split
  · subst_vars; exact m.read_write_same _ v
  · exact m.read_write_other v ‹_›

/-- The indices after a write are those before it and the one written. -/
theorem Memory.mem_write {m : Memory} {a : Nat} {v : Byte} {c : Host.Cell} (h : c ∈ m.write a v) :
    c = (a, v) ∨ c ∈ m := by
  induction m with
  | nil => simpa [Memory.write] using h
  | cons d m ih =>
    obtain ⟨k, b⟩ := d
    simp only [Memory.write] at h
    split at h
    · simpa using h
    · split at h
      · rcases List.mem_cons.1 h with h | h
        · exact .inl h
        · exact .inr (List.mem_cons_of_mem _ h)
      · rcases List.mem_cons.1 h with h | h
        · exact .inr (h ▸ List.mem_cons_self)
        · exact (ih h).imp id (List.mem_cons_of_mem _)

/-- A write keeps the canonical form. -/
theorem Memory.wf_write {m : Memory} (h : m.wf) (a : Nat) (v : Byte) : (m.write a v).wf := by
  induction m with
  | nil => simp [Memory.write, Memory.wf]
  | cons d m ih =>
    obtain ⟨k, b⟩ := d
    obtain ⟨hd, hm⟩ := List.pairwise_cons.1 h
    simp only [Memory.write]
    split
    · refine List.pairwise_cons.2 ⟨fun c hc => ?_, h⟩
      rcases List.mem_cons.1 hc with rfl | hc
      · assumption
      · exact Nat.lt_trans ‹_› (hd c hc)
    · split
      · subst_vars; exact List.pairwise_cons.2 ⟨hd, hm⟩
      · refine List.pairwise_cons.2 ⟨fun c hc => ?_, ih hm⟩
        rcases Memory.mem_write hc with rfl | hc
        · show k < a; omega
        · exact hd c hc

/-- A write below the capacity keeps every index below it. -/
theorem Memory.within_write {m : Memory} {size a : Nat} (h : m.Within size) (ha : a < size) (v : Byte) :
    (m.write a v).Within size := fun _ hc => (Memory.mem_write hc).elim (· ▸ ha) (h _)

@[simp] theorem Memory.wf_nil : Memory.wf [] := List.Pairwise.nil

@[simp] theorem Memory.within_nil (size : Nat) : Memory.Within [] size := fun _ h => nomatch h

/-- Everything an engine read can answer. -/
theorem engineRead_ok {b : Buffer} {m : Memory} {a : Nat} {v : Byte} :
    engineRead b m a = .ok v ↔ m.read a = some v := by
  unfold engineRead; cases m.read a <;> simp

theorem engineRead_error {b : Buffer} {m : Memory} {a : Nat} {f : Fault} :
    engineRead b m a = .error f ↔ m.read a = none ∧ f = .uninit b a := by
  unfold engineRead; cases m.read a <;> simp [eq_comm]

theorem buffer_writeByte_same (s : State) (b : Buffer) (a : Nat) (v : Byte) :
    ((s.writeByte b a v).buffer b).read a = some v := by
  cases b <;> exact Memory.read_write_same _ _ _

theorem buffer_writeByte_other (s : State) {b c : Buffer} {a k : Nat} (v : Byte) (h : (c, k) ≠ (b, a)) :
    ((s.writeByte b a v).buffer c).read k = (s.buffer c).read k := by
  cases b <;> cases c <;> first | rfl | exact Memory.read_write_other _ _ (by simpa using h)

end Sys2Proof.Machine
end

