-- ==== Sys2Proof/Laws/Cursor.lean ====
section
/-!
SUPPORT. What the bit cursor's operations can do: `getBit`, `readBits`, `uePrefix`, `decodeUE`, `decodeSE` and
`skipEntries`, each said once.
-/

namespace Sys2Proof.Machine

theorem zext32_toNat {n : Nat} (h : n < 2 ^ 32) : (zext32 n).toNat = n := by
  simp only [zext32, BitVec.toNat_ofNat]; omega

/-! ### One bit -/

theorem streamBit_ok {s : State} {k : Nat} {b : Bool} :
    s.streamBit k = .ok b ↔ ∃ v, s.rbuf.read (k / 8) = some v ∧ b = byteBit v k := by
  unfold State.streamBit
  split
  · rename_i v h; rw [engineRead_ok] at h; simp [h, eq_comm]
  · rename_i f h; rw [engineRead_error] at h; simp [h.1]

theorem streamBit_error {s : State} {k : Nat} {f : Fault} :
    s.streamBit k = .error f ↔ s.rbuf.read (k / 8) = none ∧ f = .uninit .rbuf (k / 8) := by
  unfold State.streamBit
  split
  · rename_i v h; rw [engineRead_ok] at h; simp [h]
  · rename_i g h; rw [engineRead_error] at h; simp [h.1, h.2, eq_comm]

theorem getBit_inside {s : State} {b : Bool} (h : s.cursor < s.endBit)
    (hb : s.streamBit s.cursor = .ok b) : getBit s = .ok (b, s.advance) := by
  simp [getBit, h, hb]

theorem getBit_past {s : State} (h : s.endBit ≤ s.cursor) : getBit s = .ok (false, s.pastEnd) := by
  simp [getBit, Nat.not_lt.2 h]

theorem getBit_cases {s t : State} {b : Bool} (h : getBit s = .ok (b, t)) :
    (s.cursor < s.endBit ∧ s.streamBit s.cursor = .ok b ∧ t = s.advance)
      ∨ (s.endBit ≤ s.cursor ∧ b = false ∧ t = s.pastEnd) := by
  unfold getBit at h
  split at h
  · split at h
    · cases h; exact .inl ⟨‹_›, ‹_›, rfl⟩
    · cases h
  · cases h; exact .inr ⟨Nat.not_lt.1 ‹_›, rfl, rfl⟩

theorem getBit_error {s : State} {f : Fault} :
    getBit s = .error f ↔ s.cursor < s.endBit ∧ s.rbuf.read (s.cursor / 8) = none
      ∧ f = .uninit .rbuf (s.cursor / 8) := by
  unfold getBit
  split
  · split
    · rename_i b hb; rw [streamBit_ok] at hb; obtain ⟨v, hv, -⟩ := hb; simp [hv]
    · rename_i g hg; rw [streamBit_error] at hg; simp [*, eq_comm]
  · simp [*]

/-! ### How far a cursor operation moves the state -/

/-- `t` is `s` with the cursor moved on: nothing but BITPOS, TRUNC, MALF and DEFICIT differs, the flags only
accumulate, and neither BITPOS nor DEFICIT goes back. -/
structure Moves (s t : State) : Prop where
  frame : t = { s with bitpos := t.bitpos, trunc := t.trunc, malf := t.malf, deficit := t.deficit }
  trunc : s.trunc = true → t.trunc = true
  malf : s.malf = true → t.malf = true
  bitpos : s.cursor ≤ s.endBit → s.rlen.toNat ≤ 2 ^ 24 → s.cursor ≤ t.cursor ∧ t.cursor ≤ t.endBit
  deficit : s.deficit.toNat ≤ t.deficit.toNat
  signalled : s.deficit ≠ t.deficit → t.trunc = true

theorem Moves.refl (s : State) : Moves s s :=
  ⟨rfl, id, id, fun h _ => ⟨Nat.le_refl _, h⟩, Nat.le_refl _, fun h => absurd rfl h⟩

theorem Moves.rlen {s t : State} (h : Moves s t) : t.rlen = s.rlen := by rw [h.frame]

theorem Moves.rbuf {s t : State} (h : Moves s t) : t.rbuf = s.rbuf := by rw [h.frame]

theorem Moves.endBit {s t : State} (h : Moves s t) : t.endBit = s.endBit := by
  unfold State.endBit; rw [h.rlen]

theorem Moves.trans {s t u : State} (h : Moves s t) (k : Moves t u) : Moves s u where
  frame := by rw [k.frame, h.frame]
  trunc := k.trunc ∘ h.trunc
  malf := k.malf ∘ h.malf
  bitpos hc hr := by
    have h1 := h.bitpos hc hr
    have h2 := k.bitpos h1.2 (by rw [h.rlen]; exact hr)
    omega
  deficit := Nat.le_trans h.deficit k.deficit
  signalled hd := by
    by_cases hst : s.deficit = t.deficit
    · exact k.signalled (hst ▸ hd)
    · exact k.trunc (h.signalled hst)

theorem advance_cursor {s : State} (h : s.cursor < s.endBit) (hr : s.rlen.toNat ≤ 2 ^ 24) :
    s.advance.cursor = s.cursor + 1 := by
  simp only [State.endBit, State.cursor, advance_bitpos] at h ⊢
  rw [BitVec.toNat_add, show (1 : Word).toNat = 1 from rfl]
  omega

theorem deficitSucc_toNat (d : Word) : (deficitSucc d).toNat = min (d.toNat + 1) (2 ^ 32 - 1) := by
  simp only [deficitSucc, BitVec.toNat_ofNat, Config.deficitMax]
  omega

theorem Moves.advance {s : State} (h : s.cursor < s.endBit) : Moves s s.advance where
  frame := rfl
  trunc := id
  malf := id
  bitpos _ hr := by
    have := advance_cursor h hr
    have he : s.advance.endBit = s.endBit := rfl
    omega
  deficit := Nat.le_refl _
  signalled h := absurd rfl h

theorem Moves.pastEnd (s : State) : Moves s s.pastEnd where
  frame := rfl
  trunc _ := rfl
  malf := id
  bitpos h _ := ⟨Nat.le_refl _, h⟩
  deficit := by
    rw [pastEnd_deficit, deficitSucc_toNat]; have := s.deficit.isLt; omega
  signalled _ := rfl

theorem Moves.flagMalf (s : State) : Moves s s.flagMalf where
  frame := rfl
  trunc := id
  malf _ := rfl
  bitpos h _ := ⟨Nat.le_refl _, h⟩
  deficit := Nat.le_refl _
  signalled h := absurd rfl h

theorem getBit_moves {s t : State} {b : Bool} (h : getBit s = .ok (b, t)) : Moves s t := by
  rcases getBit_cases h with ⟨hc, -, rfl⟩ | ⟨-, -, rfl⟩
  · exact .advance hc
  · exact .pastEnd s

theorem getBit_malf {s t : State} {b : Bool} (h : getBit s = .ok (b, t)) : t.malf = s.malf := by
  rcases getBit_cases h with ⟨-, -, rfl⟩ | ⟨-, -, rfl⟩ <;> rfl

/-- A fault of a cursor operation from `s`: UNINIT at an unwritten byte below RLEN. -/
def ReadsUnwritten (s : State) (f : Fault) : Prop :=
  ∃ a < s.rlen.toNat, f = .uninit .rbuf a ∧ s.rbuf.read a = none

theorem ReadsUnwritten.of_moves {s t : State} {f : Fault} (h : Moves s t) (k : ReadsUnwritten t f) :
    ReadsUnwritten s f := by
  simpa only [ReadsUnwritten, h.rlen, h.rbuf] using k

theorem getBit_reads {s : State} {f : Fault} (h : getBit s = .error f) : ReadsUnwritten s f := by
  obtain ⟨hc, hn, rfl⟩ := getBit_error.1 h
  exact ⟨_, by simp only [State.endBit] at hc; omega, rfl, hn⟩

/-! ### Fixed-width reads -/

theorem readBitsFrom_moves {n v w : Nat} {s t : State} (h : readBitsFrom n v s = .ok (w, t)) :
    Moves s t ∧ t.malf = s.malf ∧ w < (v + 1) * 2 ^ n := by
  induction n generalizing v s with
  | zero => cases h; exact ⟨.refl _, rfl, by omega⟩
  | succ n ih =>
    simp only [readBitsFrom] at h
    split at h
    · rename_i b s' hb
      obtain ⟨h1, h2, h3⟩ := ih h
      refine ⟨(getBit_moves hb).trans h1, h2.trans (getBit_malf hb), Nat.lt_of_lt_of_le h3 ?_⟩
      rw [Nat.pow_succ, Nat.mul_comm (2 ^ n) 2, ← Nat.mul_assoc]
      exact Nat.mul_le_mul_right _ (by have := b.toNat_le; omega)
    · cases h

theorem readBitsFrom_reads {n v : Nat} {s : State} {f : Fault} (h : readBitsFrom n v s = .error f) :
    ReadsUnwritten s f := by
  induction n generalizing v s with
  | zero => cases h
  | succ n ih =>
    simp only [readBitsFrom] at h
    split at h
    · rename_i b s' hb; exact (ih h).of_moves (getBit_moves hb)
    · cases h; exact getBit_reads ‹_›

/-- A read splits: `m + n` bits are `m` bits and then `n` bits. -/
theorem readBitsFrom_add (m n v : Nat) (s : State) :
    readBitsFrom (m + n) v s =
      match readBitsFrom m v s with
      | .ok (w, t) => readBitsFrom n w t
      | .error f => .error f := by
  induction m generalizing v s with
  | zero => simp [readBitsFrom]
  | succ m ih =>
    rw [Nat.add_right_comm]
    simp only [readBitsFrom]
    cases getBit s with
    | error f => rfl
    | ok p => exact ih _ _

/-- The value read so far only shifts the value of the bits that follow. -/
theorem readBitsFrom_value (n v : Nat) (s : State) :
    readBitsFrom n v s =
      match readBits n s with
      | .ok (w, t) => .ok (v * 2 ^ n + w, t)
      | .error f => .error f := by
  unfold readBits
  suffices h : ∀ (n u v : Nat) (s : State), readBitsFrom n (u + v) s =
      match readBitsFrom n v s with
      | .ok (w, t) => .ok (u * 2 ^ n + w, t)
      | .error f => .error f by simpa using h n v 0 s
  intro n
  induction n with
  | zero => intro u v s; simp [readBitsFrom]
  | succ n ih =>
    intro u v s
    simp only [readBitsFrom]
    cases getBit s with
    | error f => rfl
    | ok p =>
      obtain ⟨b, s'⟩ := p
      dsimp only
      rw [show 2 * (u + v) + b.toNat = 2 * u + (2 * v + b.toNat) by omega, ih]
      simp only [Nat.pow_succ, Nat.mul_comm, Nat.mul_assoc]

theorem readBits_lt {n w : Nat} {s t : State} (h : readBits n s = .ok (w, t)) : w < 2 ^ n := by
  simpa using (readBitsFrom_moves h).2.2

/-! ### Exp-Golomb codes -/

theorem uePrefix_moves {fuel lz : Nat} {r : Option Nat} {s t : State}
    (h : uePrefix fuel lz s = .ok (r, t)) :
    Moves s t ∧ ∀ k, r = some k → lz ≤ k ∧ k < lz + fuel := by
  induction fuel generalizing lz s with
  | zero => cases h; exact ⟨.flagMalf s, nofun⟩
  | succ fuel ih =>
    simp only [uePrefix] at h
    split at h
    · cases h
      refine ⟨?_, nofun⟩
      split
      · exact (Moves.pastEnd s).trans (.flagMalf _)
      · exact .pastEnd s
    · split at h
      · cases h; exact ⟨getBit_moves ‹_›, fun k hk => by cases hk; omega⟩
      · obtain ⟨h1, h2⟩ := ih h
        exact ⟨(getBit_moves ‹_›).trans h1, fun k hk => by have := h2 k hk; omega⟩
      · cases h

theorem uePrefix_reads {fuel lz : Nat} {s : State} {f : Fault} (h : uePrefix fuel lz s = .error f) :
    ReadsUnwritten s f := by
  induction fuel generalizing lz s with
  | zero => cases h
  | succ fuel ih =>
    simp only [uePrefix] at h
    split at h
    · cases h
    · split at h
      · cases h
      · exact (ih h).of_moves (getBit_moves ‹_›)
      · cases h; exact getBit_reads ‹_›

theorem decodeUE_moves {v : Nat} {s t : State} (h : decodeUE s = .ok (v, t)) :
    Moves s t ∧ v ≤ 2 ^ 32 - 2 := by
  unfold decodeUE at h
  split at h
  · rename_i lz s' hp
    split at h
    · rename_i w s'' hr
      cases h
      obtain ⟨h1, h2⟩ := uePrefix_moves hp
      have hlz := (h2 lz rfl).2
      have hw := readBits_lt hr
      have : 2 ^ lz ≤ 2 ^ 31 := Nat.pow_le_pow_right (by omega) (by simp only [Config.ueMaxLz] at hlz; omega)
      exact ⟨h1.trans (readBitsFrom_moves hr).1, by omega⟩
    · cases h
  · cases h; exact ⟨(uePrefix_moves ‹_›).1, by omega⟩
  · cases h

theorem decodeUE_reads {s : State} {f : Fault} (h : decodeUE s = .error f) : ReadsUnwritten s f := by
  unfold decodeUE at h
  split at h
  · rename_i hp
    split at h
    · cases h
    · cases h; exact (readBitsFrom_reads ‹_›).of_moves (uePrefix_moves hp).1
  · cases h
  · cases h; exact uePrefix_reads ‹_›

theorem decodeSE_moves {x : Int} {s t : State} (h : decodeSE s = .ok (x, t)) : Moves s t := by
  unfold decodeSE at h
  split at h
  · cases h; exact (decodeUE_moves ‹_›).1
  · cases h

theorem decodeSE_reads {s : State} {f : Fault} (h : decodeSE s = .error f) : ReadsUnwritten s f := by
  unfold decodeSE at h
  split at h
  · cases h
  · cases h; exact decodeUE_reads ‹_›

theorem skipEntries_moves {size count c : Nat} {last next : Int} {s t : State}
    (h : skipEntries size last next count s = .ok (c, t)) :
    Moves s t ∧ count ≤ c ∧ c ≤ count + size ∧ (size ≠ 0 → next ≠ 0 → count < c) := by
  induction size generalizing last next count s with
  | zero => cases h; exact ⟨.refl _, Nat.le_refl _, Nat.le_refl _, nofun⟩
  | succ size ih =>
    simp only [skipEntries] at h
    split at h
    · split at h
      · obtain ⟨h1, h2, h3, -⟩ := ih h
        exact ⟨(decodeSE_moves ‹_›).trans h1, by omega, by omega, fun _ _ => by omega⟩
      · cases h
    · obtain ⟨h1, h2, h3, -⟩ := ih h
      exact ⟨h1, by omega, by omega, fun _ hn => absurd hn ‹_›⟩

theorem skipEntries_reads {size count : Nat} {last next : Int} {s : State} {f : Fault}
    (h : skipEntries size last next count s = .error f) : ReadsUnwritten s f := by
  induction size generalizing last next count s with
  | zero => cases h
  | succ size ih =>
    simp only [skipEntries] at h
    split at h
    · split at h
      · exact (ih h).of_moves (decodeSE_moves ‹_›)
      · cases h; exact decodeSE_reads ‹_›
    · exact ih h

end Sys2Proof.Machine
end

