-- ==== Sys2Proof/Laws/Decode.lean ====
section
/-!
SUPPORT. The decoder's fields as arithmetic on the word's number, and its answer for each opcode.
-/

namespace Sys2Proof

theorem opField_eq (w : Word) : opField w = w.toNat / 2 ^ 28 := by
  simp only [opField, BitVec.extractLsb'_toNat, Nat.shiftRight_eq_div_pow]
  have := w.isLt
  omega

theorem countField_eq (w : Word) : countField w = w.toNat % 2 ^ 6 := by
  simp only [countField, BitVec.extractLsb'_toNat, Nat.shiftRight_zero]

theorem reservedZeroN_iff (w : Word) : reservedZeroN w = true ↔ w.toNat % 2 ^ 28 = 0 := by
  simp [reservedZeroN, BitVec.extractLsb'_toNat]

theorem reservedZeroB_iff (w : Word) : reservedZeroB w = true ↔ w.toNat % 2 ^ 28 / 2 ^ 6 = 0 := by
  simp only [reservedZeroB, BitVec.extractLsb'_toNat, Nat.shiftRight_eq_div_pow, beq_iff_eq]
  omega

theorem reservedZeroS_iff (w : Word) : reservedZeroS w = true ↔ w.toNat % 2 ^ 28 / 2 = 0 := by
  simp only [reservedZeroS, BitVec.extractLsb'_toNat, Nat.shiftRight_eq_div_pow, beq_iff_eq]
  omega

theorem wellFormed_rdbits (n : Nat) : (Instr.rdbits n).WellFormed ↔ 1 ≤ n ∧ n ≤ 32 := by
  simp only [Instr.WellFormed, Instr.wellFormed, Bool.and_eq_true, decide_eq_true_eq]
  rfl

/-- A word is its opcode and its 28 low bits. -/
theorem word_of_fields {w : Word} {op low : Nat} (h : opField w = op) (hl : w.toNat % 2 ^ 28 = low) :
    w = BitVec.ofNat 32 (op * 2 ^ 28 + low) := by
  apply BitVec.eq_of_toNat_eq
  have := w.isLt
  rw [opField_eq] at h
  simp only [BitVec.toNat_ofNat]
  omega

/-- Everything format N's decoding can answer with a command. -/
theorem decodeN_ok {w : Word} {i j : Instr} (h : decodeN w i = .ok j) :
    j = i ∧ w.toNat % 2 ^ 28 = 0 := by
  unfold decodeN at h
  split at h
  · cases h; exact ⟨rfl, (reservedZeroN_iff w).1 ‹_›⟩
  · cases h

/-- Everything format B's decoding can answer with a command. -/
theorem decodeB_ok {w : Word} {j : Instr} (h : decodeB w = .ok j) :
    j = .rdbits (countField w) ∧ j.WellFormed ∧ w.toNat % 2 ^ 28 / 2 ^ 6 = 0 := by
  unfold decodeB at h
  split at h
  · split at h
    · cases h; exact ⟨rfl, ‹_›, (reservedZeroB_iff w).1 ‹_›⟩
    · cases h
  · cases h

/-- Everything format S's decoding can answer with a command. -/
theorem decodeS_ok {w : Word} {j : Instr} (h : decodeS w = .ok j) :
    j = .skipsl (sizeField w) ∧ w.toNat % 2 ^ 28 / 2 = 0 := by
  unfold decodeS at h
  split at h
  · cases h; exact ⟨rfl, (reservedZeroS_iff w).1 ‹_›⟩
  · cases h

end Sys2Proof
end

