-- ==== Sys2Proof/Laws/Nal.lean ====
section
/-!
SUPPORT. What the NAL family's operations can do: `zeroRun`, `endsStartCode`, `scanFrom`, `deescape` and
`nalHeader`, each said once.
-/

namespace Sys2Proof.Machine

/-! ### The start-code search -/

theorem zeroRun_ok {m : Memory} {fuel p k : Nat} (h : zeroRun m fuel p = .ok k) :
    k ≤ fuel ∧ (∀ i < k, m.read (p + i) = some 0x00#8)
      ∧ (k < fuel → ∃ b, m.read (p + k) = some b ∧ b ≠ 0x00#8) := by
  induction fuel generalizing p k with
  | zero => cases h; simp
  | succ fuel ih =>
    simp only [zeroRun] at h
    split at h
    · rename_i b hb
      rw [engineRead_ok] at hb
      split at h
      · subst_vars
        split at h
        · rename_i j hj
          cases h
          obtain ⟨h1, h2, h3⟩ := ih hj
          refine ⟨by omega, fun i hi => ?_, fun hlt => ?_⟩
          · cases i with
            | zero => exact hb
            | succ i => rw [← h2 i (by omega)]; congr 1; omega
          · obtain ⟨c, hc, hc0⟩ := h3 (by omega)
            exact ⟨c, by rw [← hc]; congr 1; omega, hc0⟩
        · cases h
      · cases h; exact ⟨by omega, nofun, fun _ => ⟨b, hb, ‹_›⟩⟩
    · cases h

/-- Where the zero run is measured, every byte of it and the byte that ends it were written. -/
theorem zeroRun_written {m : Memory} {fuel p k : Nat} (h : zeroRun m fuel p = .ok k) (a : Nat)
    (h1 : p ≤ a) (h2 : a ≤ p + k) (h3 : a < p + fuel) : (m.read a).isSome = true := by
  obtain ⟨hk, hz, he⟩ := zeroRun_ok h
  obtain ⟨i, rfl⟩ := Nat.exists_eq_add_of_le h1
  by_cases hi : i < k
  · rw [hz i hi]; rfl
  · obtain ⟨b, hb, -⟩ := he (by omega)
    rw [show i = k by omega, hb]; rfl

theorem zeroRun_error {m : Memory} {fuel p : Nat} {f : Fault} (h : zeroRun m fuel p = .error f) :
    ∃ a, p ≤ a ∧ a < p + fuel ∧ m.read a = none ∧ f = .uninit .ibuf a
      ∧ ∀ b, p ≤ b → b < a → (m.read b).isSome = true := by
  induction fuel generalizing p with
  | zero => cases h
  | succ fuel ih =>
    simp only [zeroRun] at h
    split at h
    · rename_i c hc
      rw [engineRead_ok] at hc
      split at h
      · split at h
        · cases h
        · cases h
          obtain ⟨a, h1, h2, h3, h4, h5⟩ := ih ‹_›
          refine ⟨a, by omega, by omega, h3, h4, fun b hb1 hb2 => ?_⟩
          by_cases hb : b = p
          · rw [hb, hc]; rfl
          · exact h5 b (by omega) hb2
      · cases h
    · rename_i g hg
      cases h
      rw [engineRead_error] at hg
      exact ⟨p, by omega, by omega, hg.1, hg.2, fun b _ _ => by omega⟩

theorem endsStartCode_ok {m : Memory} {il p k : Nat} {r : Bool} (h : endsStartCode m il p k = .ok r) :
    r = true ↔ 2 ≤ k ∧ p + k < il ∧ m.read (p + k) = some 0x01#8 := by
  unfold endsStartCode at h
  split at h
  · split at h
    · rename_i b hb
      rw [engineRead_ok] at hb
      cases h
      simp [*]
    · cases h
  · cases h; simp only [Bool.false_eq_true, false_iff]; tauto

theorem endsStartCode_error {m : Memory} {il p k : Nat} {f : Fault}
    (h : endsStartCode m il p k = .error f) :
    p + k < il ∧ m.read (p + k) = none ∧ f = .uninit .ibuf (p + k) := by
  unfold endsStartCode at h
  split at h
  · split at h
    · cases h
    · rename_i g hg
      cases h
      exact ⟨(‹_ ∧ _› : 2 ≤ k ∧ p + k < il).2, engineRead_error.1 hg⟩
  · cases h

/-- The search stops at the first unwritten byte it comes to, and at no other. -/
theorem scanFrom_error {m : Memory} {il fuel p : Nat} {f : Fault} (h : scanFrom m il fuel p = .error f) :
    ∃ a, p ≤ a ∧ a < il ∧ m.read a = none ∧ f = .uninit .ibuf a
      ∧ ∀ b, p ≤ b → b < a → (m.read b).isSome = true := by
  induction fuel generalizing p with
  | zero => cases h
  | succ fuel ih =>
    simp only [scanFrom] at h
    split at h
    · split at h
      · rename_i c hc
        rw [engineRead_ok] at hc
        split at h
        · split at h
          · rename_i k hk
            split at h
            · cases h
            · obtain ⟨a, h1, h2, h3, h4, h5⟩ := ih h
              refine ⟨a, by omega, h2, h3, h4, fun b hb1 hb2 => ?_⟩
              by_cases hb : b < p + k
              · exact zeroRun_written hk b hb1 (by omega) (by omega)
              · exact h5 b (by omega) hb2
            · cases h
              obtain ⟨h1, h2, h3⟩ := endsStartCode_error ‹_›
              refine ⟨_, by omega, h1, h2, h3, fun b hb1 hb2 => ?_⟩
              exact zeroRun_written hk b hb1 (by omega) (by omega)
          · cases h
            obtain ⟨a, h1, h2, h3⟩ := zeroRun_error ‹_›
            exact ⟨a, h1, by omega, h3⟩
        · obtain ⟨a, h1, h2, h3, h4, h5⟩ := ih h
          refine ⟨a, by omega, h2, h3, h4, fun b hb1 hb2 => ?_⟩
          by_cases hb : b = p
          · rw [hb, hc]; rfl
          · exact h5 b (by omega) hb2
      · rename_i g hg
        cases h
        obtain ⟨h1, h2⟩ := engineRead_error.1 hg
        exact ⟨p, Nat.le_refl _, ‹_›, h1, h2, fun b _ _ => by omega⟩
    · cases h

/-- Where the search completes, every byte it came to was written: those up to the end of the start code found,
or all of them. -/
theorem scanFrom_written {m : Memory} {il fuel p q len : Nat} (h : scanFrom m il fuel p = .ok (q, len))
    (hf : il ≤ p + fuel) (a : Nat) (h1 : p ≤ a) (h2 : a < il) (h3 : len ≠ 0 → a < q + len) :
    (m.read a).isSome = true := by
  induction fuel generalizing p with
  | zero => omega
  | succ fuel ih =>
    simp only [scanFrom] at h
    rw [if_pos (by omega)] at h
    split at h
    · rename_i c hc
      rw [engineRead_ok] at hc
      split at h
      · rename_i hc0
        split at h
        · rename_i k hk
          have hk1 : 1 ≤ k := by
            by_contra h0
            obtain ⟨-, -, he⟩ := zeroRun_ok hk
            obtain ⟨b, hb, hb0⟩ := he (by omega)
            rw [show p + k = p by omega, hc] at hb
            exact hb0 (by simpa [hc0] using hb.symm)
          split at h
          · cases h
            exact zeroRun_written hk a h1 (by have := h3 (by omega); omega) (by omega)
          · by_cases ha : a < p + k
            · exact zeroRun_written hk a h1 (by omega) (by omega)
            · exact ih h (by omega) (by omega)
          · cases h
        · cases h
      · by_cases ha : a = p
        · rw [ha, hc]; rfl
        · exact ih h (by omega) (by omega)
    · cases h

/-- What the search answers: a start code between the scan's start and `il`, or `(il, 0)`. -/
theorem scanFrom_ok {m : Memory} {il fuel p q len : Nat} (h : scanFrom m il fuel p = .ok (q, len)) :
    (p ≤ q ∧ Codes.IsStartCode m il q len) ∨ (q = il ∧ len = 0) := by
  induction fuel generalizing p with
  | zero => cases h; exact .inr ⟨rfl, rfl⟩
  | succ fuel ih =>
    simp only [scanFrom] at h
    split at h
    · split at h
      · split at h
        · split at h
          · rename_i k hk
            split at h
            · rename_i he
              cases h
              obtain ⟨h2, hlt, h1⟩ := (endsStartCode_ok he).1 rfl
              exact .inl ⟨Nat.le_refl _, by omega, by omega, (zeroRun_ok hk).2.1, h1⟩
            · exact (ih h).imp (fun ⟨a, b⟩ => ⟨by omega, b⟩) id
            · cases h
          · cases h
        · exact (ih h).imp (fun ⟨a, b⟩ => ⟨by omega, b⟩) id
      · cases h
    · cases h; exact .inr ⟨rfl, rfl⟩

/-! ### De-escaping -/

/-- The output of EXTRACT's loop on a list of input bytes, after `z` zeros. -/
def strip : Nat → List Byte → List Byte
  | _, [] => []
  | z, b :: bs =>
    if 2 ≤ z ∧ b = 0x03#8 then strip 0 bs
    else b :: strip (if b = 0x00#8 then z + 1 else 0) bs

/-- RBUF after a list of bytes is written from index `o` on. -/
def writeAll : Memory → Nat → List Byte → Memory
  | rb, _, [] => rb
  | rb, o, b :: bs => writeAll (rb.write o b) (o + 1) bs

theorem writeAll_read (rb : Memory) (o : Nat) (bs : List Byte) (a : Nat) :
    (writeAll rb o bs).read a =
      if o ≤ a ∧ a < o + bs.length then bs[a - o]? else rb.read a := by
  induction bs generalizing rb o with
  | nil => simp only [writeAll, List.length_nil]; rw [if_neg (by omega)]
  | cons b bs ih =>
    simp only [writeAll, ih, Memory.read_write, List.length_cons]
    by_cases h : a = o
    · subst h; simp
    · by_cases h1 : o + 1 ≤ a ∧ a < o + 1 + bs.length
      · rw [if_pos h1, if_pos (by omega), show a - o = (a - (o + 1)) + 1 by omega]; simp
      · rw [if_neg h1, if_neg h, if_neg (by omega)]

theorem strip_length_le (z : Nat) (bs : List Byte) : (strip z bs).length ≤ bs.length := by
  induction bs generalizing z with
  | nil => simp [strip]
  | cons b bs ih =>
    simp only [strip]
    split
    · exact Nat.le_succ_of_le (ih 0)
    · simpa using ih _

/-- The loop of EXTRACT on written bytes: what it writes and how much. -/
theorem deescape_eq (ib : Memory) (bs : List Byte) (i z o : Nat) (rb : Memory)
    (h : ∀ j (hj : j < bs.length), ib.read (i + j) = some bs[j]) :
    deescape ib bs.length i z o rb =
      .ok (o + (strip z bs).length, writeAll rb o (strip z bs)) := by
  induction bs generalizing i z o rb with
  | nil => rfl
  | cons b bs ih =>
    have h0 : engineRead .ibuf ib i = .ok b := engineRead_ok.2 (h 0 (by simp))
    have hs : ∀ j (hj : j < bs.length), ib.read (i + 1 + j) = some bs[j] := fun j hj => by
      have := h (j + 1) (by simpa using hj)
      rwa [show i + 1 + j = i + (j + 1) by omega]
    simp only [List.length_cons, deescape, h0, strip]
    split
    · rw [ih _ _ _ _ hs]
    · rw [ih _ _ _ _ hs]; simp only [List.length_cons, writeAll]; congr 2; omega

theorem deescape_error {ib : Memory} {n i z o : Nat} {rb : Memory} {f : Fault}
    (h : deescape ib n i z o rb = .error f) :
    ∃ k < n, ib.read (i + k) = none ∧ f = .uninit .ibuf (i + k)
      ∧ ∀ j < k, (ib.read (i + j)).isSome = true := by
  induction n generalizing i z o rb with
  | zero => cases h
  | succ n ih =>
    simp only [deescape] at h
    split at h
    · rename_i b hb
      rw [engineRead_ok] at hb
      obtain ⟨k, h1, h2, h3, h4⟩ : ∃ k < n, ib.read (i + 1 + k) = none ∧ f = .uninit .ibuf (i + 1 + k)
          ∧ ∀ j < k, (ib.read (i + 1 + j)).isSome = true := by
        split at h <;> exact ih h
      refine ⟨k + 1, by omega, ?_, ?_, fun j hj => ?_⟩
      · rw [← h2]; congr 1; omega
      · rw [h3]; congr 1; omega
      · cases j with
        | zero => simp [hb]
        | succ j => rw [← h4 j (by omega)]; congr 2; omega
    · rename_i g hg
      cases h
      obtain ⟨h1, h2⟩ := engineRead_error.1 hg
      exact ⟨0, by omega, h1, h2, nofun⟩

/-- Where the loop of EXTRACT completes, every input byte was written. -/
theorem deescape_ok {ib : Memory} {n i z o : Nat} {rb : Memory} {r : Nat × Memory}
    (h : deescape ib n i z o rb = .ok r) :
    ∃ bs : List Byte, bs.length = n ∧ (∀ j (hj : j < bs.length), ib.read (i + j) = some bs[j])
      ∧ r = (o + (strip z bs).length, writeAll rb o (strip z bs)) := by
  suffices hb : ∃ bs : List Byte, bs.length = n ∧
      ∀ j (hj : j < bs.length), ib.read (i + j) = some bs[j] by
    obtain ⟨bs, hl, hr⟩ := hb
    subst hl
    rw [deescape_eq ib bs i z o rb hr] at h
    cases h
    exact ⟨bs, rfl, hr, rfl⟩
  induction n generalizing i z o rb with
  | zero => exact ⟨[], rfl, nofun⟩
  | succ n ih =>
    simp only [deescape] at h
    split at h
    · rename_i b hb
      rw [engineRead_ok] at hb
      obtain ⟨bs, hl, hr⟩ : ∃ bs : List Byte, bs.length = n ∧
          ∀ j (hj : j < bs.length), ib.read (i + 1 + j) = some bs[j] := by
        split at h <;> exact ih h
      refine ⟨b :: bs, by simp [hl], fun j hj => ?_⟩
      cases j with
      | zero => exact hb
      | succ j =>
        have := hr j (by simpa using hj)
        simpa [Nat.add_assoc, Nat.add_comm 1 j] using this
    · cases h

theorem nalHeader_writeAll (rb : Memory) (bs : List Byte) :
    nalHeader bs.length (writeAll rb 0 bs) =
      .ok (match bs with
        | [] => 0#32
        | h :: _ => 0x100#32 ||| h.setWidth 32) := by
  cases bs with
  | nil => rfl
  | cons b bs =>
    have : engineRead .rbuf (writeAll rb 0 (b :: bs)) 0 = .ok b := by
      rw [engineRead_ok, writeAll_read]; simp
    simp [nalHeader, this]

theorem wf_writeAll {rb : Memory} (h : rb.wf) (o : Nat) (bs : List Byte) : (writeAll rb o bs).wf := by
  induction bs generalizing rb o with
  | nil => exact h
  | cons b bs ih => exact ih (Memory.wf_write h _ _) _

theorem within_writeAll {rb : Memory} {size : Nat} (h : rb.Within size) (o : Nat) (bs : List Byte)
    (hs : o + bs.length ≤ size) : (writeAll rb o bs).Within size := by
  induction bs generalizing rb o with
  | nil => exact h
  | cons b bs ih =>
    simp only [List.length_cons] at hs
    exact ih (Memory.within_write h (by omega) _) _ (by omega)

/-- Everything EXTRACT can answer with a next state. -/
theorem execExtract_next {s t : State} (h : execExtract s = .next t) :
    ∃ bs : List Byte, bs.length = s.arg1Value
      ∧ (∀ j (hj : j < bs.length), s.ibuf.read (s.arg0Value + j) = some bs[j])
      ∧ t = { s with
          rbuf := writeAll s.rbuf 0 (strip 0 bs)
          nalhdr := match strip 0 bs with
            | [] => 0#32
            | h :: _ => 0x100#32 ||| h.setWidth 32
          rlen := zext32 (strip 0 bs).length, bitpos := 0, trunc := false, malf := false, deficit := 0 } := by
  unfold execExtract at h
  split at h
  · rename_i o rb hd
    obtain ⟨bs, hl, hr, he⟩ := deescape_ok hd
    cases he
    rw [Nat.zero_add, nalHeader_writeAll] at h
    cases h
    exact ⟨bs, hl, hr, rfl⟩
  · cases h

/-- Everything FINDSC can answer with a next state. -/
theorem execFindsc_next {s t : State} (h : execFindsc s = .next t) :
    ∃ p len : Nat, findStartCode s.ibuf s.arg0Value s.ilenValue = .ok (p, len)
      ∧ t = { s with scpos := zext32 p, result := zext32 len, nosc := decide (len = 0) }
      ∧ ((s.arg0Value ≤ p ∧ Codes.IsStartCode s.ibuf s.ilenValue p len)
          ∨ (p = s.ilenValue ∧ len = 0)) := by
  unfold execFindsc at h
  split at h
  · rename_i p len hf; cases h; exact ⟨p, len, hf, rfl, scanFrom_ok hf⟩
  · cases h

end Sys2Proof.Machine
end

