-- ==== Sys2Proof/Laws/PerInstr.lean ====
section
/-!
SUPPORT. Statements made per instruction: the word of a well-formed command matches its row of
spec/opcode_table.json under the row's mask (30_encoding.md R60).
-/

namespace Sys2Proof.Laws.EncodeMatchesTable

/-- The row of spec/opcode_table.json of a command: its mask and its match. -/
def row : Instr → Word × Word
  | .cinit => (0xFFFFFFFF#32, 0x10000000#32)
  | .rdbits _ => (0xFFFFFFC0#32, 0x20000000#32)
  | .rdue => (0xFFFFFFFF#32, 0x30000000#32)
  | .rdse => (0xFFFFFFFF#32, 0x40000000#32)
  | .skipsl _ => (0xFFFFFFFE#32, 0x50000000#32)
  | .findsc => (0xFFFFFFFF#32, 0x60000000#32)
  | .extract => (0xFFFFFFFF#32, 0x70000000#32)

/-- A well-formed command's word matches its row. -/
def Statement (i : Instr) : Prop := i.WellFormed → encode i &&& (row i).1 = (row i).2

theorem cinit : Statement .cinit := fun _ => by decide

theorem rdbits (n : Nat) : Statement (.rdbits n) := fun h => by
  obtain ⟨h1, h2⟩ := (wellFormed_rdbits n).1 h
  interval_cases n <;> decide

theorem rdue : Statement .rdue := fun _ => by decide

theorem rdse : Statement .rdse := fun _ => by decide

theorem skipsl (size : ListSize) : Statement (.skipsl size) := fun _ => by cases size <;> decide

theorem findsc : Statement .findsc := fun _ => by decide

theorem extract : Statement .extract := fun _ => by decide

end Sys2Proof.Laws.EncodeMatchesTable
end

