-- ==== Sys2Proof/Laws/Step.lean ====
section
/-!
SUPPORT. What a command, a host access and a step can do, each said once.
-/

namespace Sys2Proof.Machine

/-! ### The status word -/

theorem flagBit_getLsbD (f : Bool) {i : Nat} (j : Nat) (hi : i < 32) :
    (flagBit f i).getLsbD j = (f && decide (j = i)) := by
  cases f with
  | false => simp [flagBit]
  | true =>
    simp only [flagBit, if_true, BitVec.getLsbD_ofNat, Nat.testBit_two_pow, Bool.true_and]
    by_cases h : i = j
    · subst h; simp [hi]
    · simp [h, Ne.symm h]

/-- Every bit of STATUS. -/
theorem statusWord_getLsbD (s : State) (j : Nat) : s.statusWord.getLsbD j =
    ((s.pending && decide (j = 0)) || (s.trunc && decide (j = 1)) || (s.malf && decide (j = 2))
      || (s.nosc && decide (j = 3)) || (s.ill && decide (j = 4)) || (s.ovr && decide (j = 5))) := by
  simp only [State.statusWord, BitVec.getLsbD_or,
    flagBit_getLsbD _ _ (show 0 < 32 by omega), flagBit_getLsbD _ _ (show 1 < 32 by omega),
    flagBit_getLsbD _ _ (show 2 < 32 by omega), flagBit_getLsbD _ _ (show 3 < 32 by omega),
    flagBit_getLsbD _ _ (show 4 < 32 by omega), flagBit_getLsbD _ _ (show 5 < 32 by omega)]

/-! ### Commands -/

/-- A cursor command that completes moves the cursor and writes RESULT; that is all. -/
theorem exec_cursor_next {i : Instr} {s t : State} (hi : isCursorCommand i = true)
    (h : exec i s = .next t) : ∃ u v, Moves s u ∧ t = { u with result := v } := by
  cases i with
  | rdbits n =>
    simp only [exec, execRdbits, writeResult] at h
    split at h
    · cases h; exact ⟨_, _, (readBitsFrom_moves ‹_›).1, rfl⟩
    · cases h
  | rdue =>
    simp only [exec, execRdue, writeResult] at h
    split at h
    · cases h; exact ⟨_, _, (decodeUE_moves ‹_›).1, rfl⟩
    · cases h
  | rdse =>
    simp only [exec, execRdse, writeResult] at h
    split at h
    · cases h; exact ⟨_, _, decodeSE_moves ‹_›, rfl⟩
    · cases h
  | skipsl size =>
    simp only [exec, execSkipsl, writeResult] at h
    split at h
    · cases h; exact ⟨_, _, (skipEntries_moves ‹_›).1, rfl⟩
    · cases h
  | cinit => cases hi
  | findsc => cases hi
  | extract => cases hi

/-- A cursor command that stops does so at an unwritten byte of the cursor buffer. -/
theorem exec_cursor_fault {i : Instr} {s : State} {f : Fault} (hi : isCursorCommand i = true)
    (h : exec i s = .fault f) : ReadsUnwritten s f := by
  cases i with
  | rdbits n =>
    simp only [exec, execRdbits, writeResult] at h
    split at h
    · cases h
    · cases h; exact readBitsFrom_reads ‹_›
  | rdue =>
    simp only [exec, execRdue, writeResult] at h
    split at h
    · cases h
    · cases h; exact decodeUE_reads ‹_›
  | rdse =>
    simp only [exec, execRdse, writeResult] at h
    split at h
    · cases h
    · cases h; exact decodeSE_reads ‹_›
  | skipsl size =>
    simp only [exec, execSkipsl, writeResult] at h
    split at h
    · cases h
    · cases h; exact skipEntries_reads ‹_›
  | cinit => cases hi
  | findsc => cases hi
  | extract => cases hi

theorem writeResult_not_refused {α : Type} (f : α → Word) (x : Except Fault (α × State)) (r : Refusal) :
    writeResult f x ≠ .refused r := by
  unfold writeResult; split <;> nofun

/-- No command is refused. -/
theorem exec_not_refused (i : Instr) (s : State) (r : Refusal) : exec i s ≠ .refused r := by
  cases i with
  | cinit => nofun
  | rdbits n => exact writeResult_not_refused _ _ r
  | rdue => exact writeResult_not_refused _ _ r
  | rdse => exact writeResult_not_refused _ _ r
  | skipsl size => exact writeResult_not_refused _ _ r
  | findsc => simp only [exec, execFindsc]; split <;> nofun
  | extract =>
    simp only [exec, execExtract]
    split
    · split <;> nofun
    · nofun

/-- What every command leaves unchanged, whatever it is: the operand registers, the latch, PENDING, ILL, OVR,
IBUF and the model's own fields. -/
theorem exec_frame {i : Instr} {s t : State} (h : exec i s = .next t) :
    t = { s with result := t.result, rlen := t.rlen, bitpos := t.bitpos, deficit := t.deficit,
                 scpos := t.scpos, nalhdr := t.nalhdr, trunc := t.trunc, malf := t.malf,
                 nosc := t.nosc, rbuf := t.rbuf } := by
  by_cases hi : isCursorCommand i = true
  · obtain ⟨u, v, hu, rfl⟩ := exec_cursor_next hi h
    rw [hu.frame]
  · cases i with
    | cinit => cases h; rfl
    | findsc => obtain ⟨p, len, -, rfl, -⟩ := execFindsc_next h; rfl
    | extract => obtain ⟨bs, -, -, rfl⟩ := execExtract_next h; rfl
    | rdbits n => exact absurd rfl hi
    | rdue => exact absurd rfl hi
    | rdse => exact absurd rfl hi
    | skipsl size => exact absurd rfl hi

/-! ### The bus -/

/-- Everything an issue attempt can do. -/
theorem issue_cases (s : State) (w : Word) :
    (s.pending = true ∧ s.issue w = s.raiseOvr)
    ∨ (s.pending = false ∧ ∃ r, legal s.params w s.arg0.toNat s.arg1.toNat s.ilen.toNat = .error r
        ∧ s.issue w = s.raiseIll r)
    ∨ (s.pending = false ∧ ∃ i, legal s.params w s.arg0.toNat s.arg1.toNat s.ilen.toNat = .ok i
        ∧ s.issue w = s.latch w) := by
  unfold State.issue
  split
  · exact .inl ⟨‹_›, rfl⟩
  · rename_i hp
    have hp : s.pending = false := by simpa using hp
    split
    · exact .inr (.inl ⟨hp, _, ‹_›, rfl⟩)
    · exact .inr (.inr ⟨hp, _, ‹_›, rfl⟩)

theorem regAt_address {off : Nat} {r : Reg} (h : regAt off = some r) : off < 0x100 ∧ off % 4 = 0 := by
  unfold regAt at h
  split at h <;> first | omega | skip
  split at h
  · omega
  · cases h

theorem targetAt_reg {p : Params} {off bits : Nat} {r : Reg} (h : targetAt p off bits = some (.reg r)) :
    bits = 32 ∧ regAt off = some r := by
  unfold targetAt at h
  split at h
  · rw [Option.map_eq_some_iff] at h
    obtain ⟨r', hr, he⟩ := h
    cases he
    exact ⟨‹_›, hr⟩
  · split at h
    · split at h
      · cases h
      · split at h <;> cases h
    · cases h

theorem targetAt_byte {p : Params} {off bits a : Nat} {b : Buffer}
    (h : targetAt p off bits = some (.byte b a)) :
    bits = 8 ∧ a < p.size b ∧ off = (match b with | .ibuf => ibufOffset | .rbuf => rbufOffset) + a := by
  unfold targetAt at h
  split at h
  · rw [Option.map_eq_some_iff] at h
    obtain ⟨r', -, he⟩ := h
    cases he
  · split at h
    · split at h
      · cases h; refine ⟨‹_›, ?_, ?_⟩ <;> simp only [Params.size] <;> omega
      · split at h
        · cases h; refine ⟨‹_›, ?_, ?_⟩ <;> simp only [Params.size] <;> omega
        · cases h
    · cases h

theorem busTarget_some {p : Params} {addr bits : Nat} {x : Target} (h : busTarget p addr bits = some x) :
    p.blockBase ≤ addr ∧ targetAt p (addr - p.blockBase) bits = some x := by
  unfold busTarget at h
  split at h
  · exact ⟨‹_›, h⟩
  · cases h

theorem busTarget_offset (p : Params) (off bits : Nat) :
    busTarget p (p.blockBase + off) bits = targetAt p off bits := by
  simp [busTarget]

theorem busTarget_byteAddress {p : Params} (hp : p.Ok) {b : Buffer} {a : Nat} (h : a < p.size b) :
    busTarget p (byteAddress p b a) 8 = some (.byte b a) := by
  obtain ⟨⟨h1, h2⟩, h3, h4⟩ := hp
  cases b with
  | ibuf =>
    simp only [Params.size] at h
    rw [show byteAddress p .ibuf a = p.blockBase + (ibufOffset + a) from Nat.add_assoc _ _ _,
      busTarget_offset]
    simp [targetAt, h]
  | rbuf =>
    simp only [Params.size] at h
    rw [show byteAddress p .rbuf a = p.blockBase + (rbufOffset + a) from Nat.add_assoc _ _ _,
      busTarget_offset]
    have : ¬(ibufOffset ≤ rbufOffset + a ∧ rbufOffset + a < ibufOffset + p.ibufSize) := by
      simp only [ibufOffset, rbufOffset]; omega
    simp [targetAt, h, this]

/-- Everything a host access can answer with a next state. -/
theorem hostAccess_next {a : BusAccess} {s t : State} (h : hostAccess a s = .next t) :
    (∃ addr bits r, a = .read addr bits ∧ t = s.reply r)
    ∨ (∃ addr r v, a = .write addr 32 v ∧ busTarget s.params addr 32 = some (.reg r)
        ∧ t = (s.regWrite r v).tick)
    ∨ (∃ addr b k v, a = .write addr 8 v ∧ busTarget s.params addr 8 = some (.byte b k)
        ∧ s.pending = false ∧ t = (s.writeByte b k (v.setWidth 8)).tick) := by
  cases a with
  | read addr bits =>
    simp only [hostAccess] at h
    split at h
    · cases h; exact .inl ⟨_, _, _, rfl, rfl⟩
    · cases h; exact .inl ⟨_, _, _, rfl, rfl⟩
    · cases h
  | write addr bits v =>
    simp only [hostAccess] at h
    split at h
    · rename_i r hr
      cases h
      obtain ⟨rfl, -⟩ := targetAt_reg (busTarget_some hr).2
      exact .inr (.inl ⟨_, _, _, rfl, hr, rfl⟩)
    · rename_i b k hb
      obtain ⟨rfl, -⟩ := targetAt_byte (busTarget_some hb).2
      unfold hostWriteByte at h
      split at h
      · cases h
      · rename_i hp
        cases h
        exact .inr (.inr ⟨_, _, _, _, rfl, hb, by simpa using hp, rfl⟩)
    · cases h

/-- What a register write leaves unchanged, whatever the register: the cursor, RESULT, the buffers and the
model's own fields. -/
theorem regWrite_frame (s : State) (r : Reg) (v : Word) :
    s.regWrite r v = { s with
      arg0 := (s.regWrite r v).arg0, arg1 := (s.regWrite r v).arg1, ilen := (s.regWrite r v).ilen,
      ill := (s.regWrite r v).ill, ovr := (s.regWrite r v).ovr, pending := (s.regWrite r v).pending,
      lcmd := (s.regWrite r v).lcmd, larg0 := (s.regWrite r v).larg0, larg1 := (s.regWrite r v).larg1,
      lilen := (s.regWrite r v).lilen, illReason := (s.regWrite r v).illReason } := by
  cases r <;> try rfl
  simp only [State.regWrite, State.issue]
  split
  · rfl
  · split <;> rfl

/-! ### One step -/

/-- Everything a step can answer with a next state: a reset; a command run by the engine; a turn that passes;
a poll of STATUS; an access of the host. -/
theorem step_cases {s t : State} (h : step s = .next t) :
    (s.ResetsNow ∧ t = resetTurn { s with turns := s.turns.tail })
    ∨ (∃ i u, s.EngineRuns i ∧ exec i { s with turns := s.turns.tail } = .next u ∧ t = u.complete)
    ∨ (¬s.ResetsNow ∧ t = { s with turns := s.turns.tail })
    ∨ (s.HostMoves ∧ ∃ rest, s.host = .wait :: rest ∧ t = hostWait rest { s with turns := s.turns.tail })
    ∨ (∃ a, s.HostDoes a ∧ hostAccess a s.afterHead = .next t) := by
  have engine : (s.turns.head? = some .engine ∨ s.turns = []) → ¬s.ResetsNow →
      engineTurn { s with turns := s.turns.tail } = .next t →
      (∃ i u, s.EngineRuns i ∧ exec i { s with turns := s.turns.tail } = .next u ∧ t = u.complete)
      ∨ (¬s.ResetsNow ∧ t = { s with turns := s.turns.tail }) := by
    intro ht hn h
    unfold engineTurn at h
    split at h
    · rename_i hp
      split at h
      · rename_i i hl
        cases hx : exec i { s with turns := s.turns.tail } with
        | next u => rw [hx] at h; cases h; exact .inl ⟨i, u, ⟨ht, hp, hl⟩, hx, rfl⟩
        | fault f => rw [hx] at h; cases h
        | refused r => rw [hx] at h; cases h
      · cases h
    · cases h; exact .inr ⟨hn, rfl⟩
  have host : s.HostMoves → ¬s.ResetsNow → hostTurn { s with turns := s.turns.tail } = .next t →
      (¬s.ResetsNow ∧ t = { s with turns := s.turns.tail })
      ∨ (s.HostMoves ∧ ∃ rest, s.host = .wait :: rest ∧
          t = hostWait rest { s with turns := s.turns.tail })
      ∨ (∃ a, s.HostDoes a ∧ hostAccess a s.afterHead = .next t) := by
    intro hm hn h
    unfold hostTurn at h
    split at h
    · cases h; exact .inl ⟨hn, rfl⟩
    · cases h; exact .inr (.inl ⟨hm, _, ‹_›, rfl⟩)
    · rename_i a rest hh
      refine .inr (.inr ⟨a, ⟨hm, by simp [show s.host = _ from hh]⟩, ?_⟩)
      rw [← h]
      simp only [State.afterHead, show s.host = _ from hh, List.tail_cons]
  unfold step agentStep at h
  split at h
  · rename_i ht
    have hn : ¬s.ResetsNow := by simp [State.ResetsNow, ht]
    have hs : ({ s with turns := s.turns.tail } : State) = s := by rw [ht]; cases s; simp_all
    by_cases hp : s.pending = true
    · rw [defaultTurn, if_pos hp, takeTurn, ← hs] at h
      rcases engine (.inr ht) hn h with h | h
      · exact .inr (.inl h)
      · exact .inr (.inr (.inl h))
    · rw [defaultTurn, if_neg hp, takeTurn, ← hs] at h
      rcases host (.inr ⟨ht, by simpa using hp⟩) hn h with h | h | h
      · exact .inr (.inr (.inl h))
      · exact .inr (.inr (.inr (.inl h)))
      · exact .inr (.inr (.inr (.inr h)))
  · rename_i x rest ht
    have hs : ({ s with turns := rest } : State) = { s with turns := s.turns.tail } := by rw [ht]; rfl
    rw [hs] at h
    cases x with
    | reset => cases h; exact .inl ⟨by simp [State.ResetsNow, ht], rfl⟩
    | engine =>
      rcases engine (.inl (by simp [ht])) (by simp [State.ResetsNow, ht]) h with h | h
      · exact .inr (.inl h)
      · exact .inr (.inr (.inl h))
    | host =>
      rcases host (.inl (by simp [ht])) (by simp [State.ResetsNow, ht]) h with h | h | h
      · exact .inr (.inr (.inl h))
      · exact .inr (.inr (.inr (.inl h)))
      · exact .inr (.inr (.inr (.inr h)))

/-- A step in which the host performs an access is that access. -/
theorem step_hostDoes {s : State} {a : BusAccess} (h : s.HostDoes a) :
    step s = hostAccess a s.afterHead := by
  obtain ⟨hm, hh⟩ := h
  obtain ⟨rest, hh⟩ : ∃ rest, s.host = .access a :: rest := by
    cases hx : s.host with
    | nil => simp [hx] at hh
    | cons x rest => simp [hx] at hh; exact ⟨rest, by rw [hh]⟩
  have hs : ({ ({ s with turns := s.turns.tail } : State) with host := rest } : State) = s.afterHead := by
    simp [State.afterHead, hh]
  rcases hm with ht | ⟨ht, hp⟩
  · obtain ⟨ts, ht⟩ : ∃ ts, s.turns = .host :: ts := by
      cases hx : s.turns with
      | nil => simp [hx] at ht
      | cons x ts => simp [hx] at ht; exact ⟨ts, by rw [ht]⟩
    rw [ht] at hs
    simp only [step, agentStep, ht, takeTurn, hostTurn, hh]
    exact congrArg _ hs
  · rw [ht] at hs
    have hd : defaultTurn s = .host := by simp [defaultTurn, hp]
    simp only [step, agentStep, ht, hd, takeTurn, hostTurn, hh]
    exact congrArg _ hs

theorem engineTurn_runs {s : State} {i : Instr} (hp : s.pending = true) (hl : s.latched = .ok i) :
    engineTurn s = finishCommand (exec i s) := by
  unfold engineTurn; rw [if_pos hp, hl]

/-- A step in which the engine runs a command is that command and its completion. -/
theorem step_engineRuns {s : State} {i : Instr} (h : s.EngineRuns i) :
    step s = finishCommand (exec i { s with turns := s.turns.tail }) := by
  obtain ⟨ht | ht, hp, hl⟩ := h
  · obtain ⟨ts, ht⟩ : ∃ ts, s.turns = .engine :: ts := by
      cases hx : s.turns with
      | nil => simp [hx] at ht
      | cons x ts => simp [hx] at ht; exact ⟨ts, by rw [ht]⟩
    simp only [step, agentStep, ht, takeTurn, List.tail_cons]
    exact engineTurn_runs (s := { s with turns := ts }) hp hl
  · have hs : ({ s with turns := s.turns.tail } : State) = s := by rw [ht]; cases s; simp_all
    rw [hs]
    have hd : defaultTurn s = .engine := by simp [defaultTurn, hp]
    simp only [step, agentStep, ht, hd, takeTurn]
    exact engineTurn_runs hp hl

end Sys2Proof.Machine
end

