-- ==== Sys2Proof/Tests/Slice0.lean ====
section
/-!
SUPPORT. Tests: the well-formedness smoke, words of spec/30_encoding.md R60 decoded, one step of each command
with the result spec/95_test_vectors.md gives, and for each statement with hypotheses a state that meets them.
-/

namespace Sys2Proof.Tests

open Sys2Proof.Machine Sys2Proof.Codes

/-! ### Small states -/

/-- Small parameters. -/
def params : Params := { ibufSize := 16, rbufSize := 64, blockBase := 0x1000 }

/-- An engine right after reset. -/
def idle : State := State.resetWith params

/-- A buffer whose bytes from index `a` on are written. -/
def listing : Nat → List Byte → Memory
  | _, [] => []
  | a, b :: bs => (a, b) :: listing (a + 1) bs

/-- A fresh cursor over the bytes, as CINIT starts it (95_test_vectors.md, conventions). -/
def cursorOver (bytes : List Byte) : State :=
  { idle with rbuf := listing 0 bytes, rlen := BitVec.ofNat 32 bytes.length }

/-- A command on `ilen` written bytes of IBUF with the operands latched. -/
def input (bytes : List Byte) (a0 a1 : Word) : State :=
  { idle with ibuf := listing 0 bytes, larg0 := a0, larg1 := a1, lilen := BitVec.ofNat 25 bytes.length }

/-- The engine about to execute the word `w` in the state `s`. -/
def pendingOn (w : Word) (s : State) : State := { s with pending := true, lcmd := w }

/-- The host about to perform one access in the state `s`. -/
def hostOn (a : BusAccess) (s : State) : State := { s with host := [.access a], turns := [.host] }

/-- A view of the next state, if there is one. -/
def see {α : Type} (f : State → α) : Host.Outcome State Fault Refusal → Option α
  | .next s => some (f s)
  | .fault _ => none
  | .refused _ => none

/-- The cursor registers: RESULT, BITPOS, TRUNC, MALF, DEFICIT. -/
def cursorView (s : State) : Word × Word × Bool × Bool × Word :=
  (s.result, s.bitpos, s.trunc, s.malf, s.deficit)

/-! ### Well-formedness: the check refuses a count outside 1 to 32 (30_encoding.md R62) -/

theorem test_wellFormed_rdbits_0 : (Instr.rdbits 0).wellFormed = false := by decide

theorem test_wellFormed_rdbits_33 : (Instr.rdbits 33).wellFormed = false := by decide

/-! ### Decoding: words written out from 30_encoding.md R60 and 95_test_vectors.md 2.1 -/

theorem test_decode_cinit : decode 0b00010000000000000000000000000000#32 = .ok .cinit := by decide
theorem test_decode_rdbits_8 : decode 0b00100000000000000000000000001000#32 = .ok (.rdbits 8) := by decide
theorem test_decode_rdbits_32 : decode 0b00100000000000000000000000100000#32 = .ok (.rdbits 32) := by decide
theorem test_decode_rdue : decode 0b00110000000000000000000000000000#32 = .ok .rdue := by decide
theorem test_decode_rdse : decode 0b01000000000000000000000000000000#32 = .ok .rdse := by decide
theorem test_decode_skipsl_16 : decode 0b01010000000000000000000000000000#32 = .ok (.skipsl .sixteen) := by
  decide
theorem test_decode_skipsl_64 : decode 0b01010000000000000000000000000001#32 = .ok (.skipsl .sixtyFour) := by
  decide
theorem test_decode_findsc : decode 0b01100000000000000000000000000000#32 = .ok .findsc := by decide
theorem test_decode_extract : decode 0b01110000000000000000000000000000#32 = .ok .extract := by decide
theorem test_decode_reserved_before_count : decode 0x20000040#32 = .error .reserved := by decide
theorem test_decode_count_63 : decode 0x2000003F#32 = .error .count := by decide

/-! ### One step of each command (95_test_vectors.md 2.1 to 2.8) -/

theorem test_legal_cinit_65 : legal params 0x10000000#32 65 0 10 = .error .range := by decide
theorem test_legal_extract_no_wrap :
    legal params 0x70000000#32 0xFFFFFFFF 1 10 = .error .range := by decide

theorem test_cinit_restarts :
    see (fun t => (t.rlen, cursorView t))
      (exec .cinit { cursorOver [0xA5#8, 0xFF#8] with
        larg0 := 1#32, bitpos := 16#32, trunc := true, deficit := 16#32 })
      = some (1#32, 0#32, 0#32, false, false, 0#32) := by decide

theorem test_rdbits_past_the_end :
    see cursorView (exec (.rdbits 8) { cursorOver [0xA5#8, 0xFF#8] with bitpos := 12#32 })
      = some (0xF0#32, 16#32, true, false, 4#32) := by decide

theorem test_rdbits_most_significant_first :
    see cursorView (exec (.rdbits 32) (cursorOver [0x12#8, 0x34#8, 0x56#8, 0x78#8, 0x9A#8]))
      = some (0x12345678#32, 32#32, false, false, 0#32) := by decide

theorem test_rdue_largest :
    see cursorView
      (exec .rdue (cursorOver [0x00#8, 0x00#8, 0x00#8, 0x01#8, 0xFF#8, 0xFF#8, 0xFF#8, 0xFE#8]))
      = some (0xFFFFFFFE#32, 63#32, false, false, 0#32) := by decide

theorem test_rdue_zeros_into_the_end :
    see cursorView (exec .rdue { cursorOver [0x28#8] with bitpos := 5#32 })
      = some (0#32, 8#32, true, true, 1#32) := by decide

theorem test_rdse_minus_2 :
    see cursorView (exec .rdse (cursorOver [0x28#8])) = some (0xFFFFFFFE#32, 5#32, false, false, 0#32) := by
  decide

theorem test_rdse_minus_128 :
    see cursorView (exec .rdse (cursorOver [0x00#8, 0x80#8, 0x80#8]))
      = some (0xFFFFFF80#32, 17#32, false, false, 0#32) := by decide

theorem test_skipsl_stops_at_zero :
    see cursorView (exec (.skipsl .sixteen) (cursorOver [0x08#8, 0x80#8]))
      = some (1#32, 9#32, false, false, 0#32) := by decide

theorem test_skipsl_wraps_mod_256 :
    see cursorView (exec (.skipsl .sixteen) (cursorOver [0x00#8, 0x4B#8, 0x3F#8, 0xFF#8, 0xC0#8]))
      = some (16#32, 34#32, false, false, 0#32) := by decide

theorem test_findsc_leading_zero :
    see (fun t => (t.scpos, t.result, t.nosc))
      (exec .findsc (input [0x00#8, 0x00#8, 0x00#8, 0x01#8, 0xAA#8] 0#32 0#32))
      = some (0#32, 4#32, false) := by decide

theorem test_findsc_not_found :
    see (fun t => (t.scpos, t.result, t.nosc))
      (exec .findsc (input [0x00#8, 0x00#8, 0x00#8, 0x01#8, 0xAA#8] 2#32 0#32))
      = some (5#32, 0#32, true) := by decide

theorem test_extract_drops_the_emulation_byte :
    see (fun t => (t.rbuf, t.rlen, t.nalhdr))
      (exec .extract (input [0x00#8, 0x00#8, 0x03#8, 0x01#8] 0#32 4#32))
      = some (listing 0 [0x00#8, 0x00#8, 0x01#8], 3#32, 0x100#32) := by decide

theorem test_extract_header :
    see (fun t => (t.rlen, t.nalhdr))
      (exec .extract (input [0x65#8, 0x00#8, 0x00#8, 0x03#8, 0x00#8, 0x00#8, 0x03#8, 0x01#8] 0#32 8#32))
      = some (6#32, 0x165#32) := by decide

/-- 95_test_vectors.md 2.8: RDBITS 8 as the first command after reset. -/
theorem test_step_runs_the_placed_word :
    see cursorView (step (State.reset.withFetchWord 32 0x20000008))
      = some (0#32, 0#32, true, false, 8#32) := by decide

theorem test_decodeTableWord : decodeTableWord 32 0x50000001 = some (.skipsl .sixtyFour) := by decide

/-- 95_test_vectors.md P6 row 1 and row 2: ILL is raised and cleared. -/
theorem test_issue_refused :
    see (fun t => (t.regRead .status, t.pending)) (step (hostOn (.write 0x1000 32 0x20000000#32) idle))
      = some (0x10#32, false) := by decide

theorem test_status_clears :
    see (fun t => t.regRead .status)
      (step (hostOn (.write 0x1004 32 0x10#32) { idle with ill := true, ovr := true }))
      = some (0x20#32) := by decide

/-- 95_test_vectors.md P6 row 8, outcome B: the word is dropped with OVR. -/
theorem test_issue_overrun :
    see (fun t => (t.regRead .status, t.lcmd))
      (step (hostOn (.write 0x1000 32 0x30000000#32) (pendingOn 0x10000000#32 idle)))
      = some (0x21#32, 0x10000000#32) := by decide

/-- 95_test_vectors.md S11 and 60_exceptions.md R99: TRUNC without MALF is TruncatedInput with DEFICIT. -/
theorem test_verdict_truncated :
    ({ idle with trunc := true, deficit := 13#32 } : State).verdict = .truncatedInput 13 := by decide

/-- 60_exceptions.md R99: MALF comes before TRUNC. -/
theorem test_verdict_malformed : ({ idle with trunc := true, malf := true } : State).verdict = .malformedCode := by
  decide

/-- 60_exceptions.md R99: NOSC is BadStartCode where the host required a start code, and only there. -/
theorem test_verdict_bad_start_code : ({ idle with nosc := true } : State).searchVerdict true = some .badStartCode
    ∧ ({ idle with nosc := true } : State).searchVerdict false = none := by decide

/-! ### Witnesses: states and operands that meet the hypotheses of the statements -/

/-- Engines of the least and the largest parameters. -/
theorem witness_parameters : ({ ibufSize := 1, rbufSize := 1, blockBase := 0 } : Params).Ok
    ∧ ({ ibufSize := 2 ^ 24, rbufSize := 2 ^ 24, blockBase := 0 } : Params).Ok ∧ params.Ok := by decide

theorem witness_DecodeOfEncodeIsTheCommand : (Instr.rdbits 1).WellFormed ∧ (Instr.rdbits 32).WellFormed
    ∧ Instr.cinit.WellFormed ∧ (Instr.skipsl .sixtyFour).WellFormed := by decide

theorem witness_DecodedWordIsTheEncoding : decode 0x20000020#32 = .ok (.rdbits 32)
    ∧ decode 0x50000001#32 = .ok (.skipsl .sixtyFour) := by decide

theorem witness_ResetTurnAbandonsTheCommand :
    ({ pendingOn 0x10000000#32 idle with turns := [.reset] } : State).turns = .reset :: [] := rfl

/-- A pending RDBITS 8 on one byte. -/
def busy : State := pendingOn 0x20000008#32 (cursorOver [0xA5#8])

theorem busy_inv : busy.Inv := by constructor <;> decide

theorem busy_latchOk : busy.LatchOk := fun _ => rfl

theorem witness_EveryStepKeepsTheInvariant : busy.Inv ∧ ∃ t, step busy = .next t := ⟨busy_inv, _, rfl⟩

theorem witness_ReachableStatesMeetTheBounds : Reachable idle := .reset params (by decide)

theorem witness_LatchedCommandStaysLegal : busy.Inv ∧ busy.LatchOk ∧ ∃ t, step busy = .next t :=
  ⟨busy_inv, busy_latchOk, _, rfl⟩

theorem witness_NoStepChangesTheParameters : ∃ t, step busy = .next t := ⟨_, rfl⟩

theorem witness_EngineStepRunsTheLatchedCommand :
    busy.EngineRuns (.rdbits 8) ∧ ∃ t, exec (.rdbits 8) { busy with turns := busy.turns.tail } = .next t :=
  ⟨by decide, _, rfl⟩

theorem witness_EngineStepRunsTheLatchedCommand_idle :
    ({ idle with turns := [.engine] } : State).turns = .engine :: [] ∧ idle.pending = false := ⟨rfl, rfl⟩

theorem witness_PlacedWordRunsNext :
    legal idle.params 0x20000001#32 idle.arg0.toNat idle.arg1.toNat (idle.ilen.setWidth 25).toNat
      = .ok (.rdbits 1)
    ∧ ∃ t, exec (.rdbits 1) { idle with
        lcmd := 0x20000001#32, larg0 := idle.arg0, larg1 := idle.arg1, lilen := idle.ilen.setWidth 25,
        pending := true } = .next t := ⟨by decide, _, rfl⟩

theorem witness_IdleEngineWaits : idle.pending = false ∧ idle.host = [] ∧ idle.turns = [] :=
  ⟨rfl, rfl, rfl⟩

/-- A command pending and a CMD write next in the host's list (95_test_vectors.md P6 row 8). -/
def contended : State := { busy with host := [.access (.write 0x1000 32 0x30000000#32)] }

theorem witness_BothOrdersOfIssueAndCompletion :
    contended.pending = true ∧ contended.latched = .ok (.rdbits 8)
      ∧ contended.host = .access (.write (contended.address 0) 32 0x30000000#32) :: []
      ∧ ∃ t, exec (.rdbits 8) contended = .next t := ⟨rfl, by decide, rfl, _, rfl⟩

theorem witness_CmdWriteIsAnIssueAttempt_overrun :
    (hostOn (.write 0x1000 32 0x30000000#32) busy).HostDoes
      (.write ((hostOn (.write 0x1000 32 0x30000000#32) busy).address 0x00) 32 0x30000000#32)
    ∧ (hostOn (.write 0x1000 32 0x30000000#32) busy).pending = true := by decide

theorem witness_CmdWriteIsAnIssueAttempt_refused :
    (hostOn (.write 0x1000 32 0#32) idle).HostDoes
      (.write ((hostOn (.write 0x1000 32 0#32) idle).address 0x00) 32 0#32)
    ∧ legal params 0#32 0 0 0 = .error .opcode := by decide

theorem witness_CmdWriteIsAnIssueAttempt_latched :
    (hostOn (.write 0x1000 32 0x20000020#32) idle).HostDoes
      (.write ((hostOn (.write 0x1000 32 0x20000020#32) idle).address 0x00) 32 0x20000020#32)
    ∧ legal params 0x20000020#32 0 0 0 = .ok (.rdbits 32) := by decide

theorem witness_StatusWriteClearsIllAndOvr :
    (hostOn (.write 0x1004 32 0x30#32) idle).HostDoes
      (.write ((hostOn (.write 0x1004 32 0x30#32) idle).address 0x04) 32 0x30#32) := by decide

/-- Every offset of the register window can be written and read by the host, pending or not. -/
theorem witness_registerAccess : ∀ off ∈ [0x00, 0x04, 0x08, 0x0C, 0x10, 0x14, 0x18, 0x1C, 0x20, 0x24, 0x28,
      0x2C, 0x30, 0xFC],
    (hostOn (.write (0x1000 + off) 32 5#32) busy).HostDoes
        (.write ((hostOn (.write (0x1000 + off) 32 5#32) busy).address off) 32 5#32)
    ∧ (hostOn (.read (0x1000 + off) 32) idle).HostDoes
        (.read ((hostOn (.read (0x1000 + off) 32) idle).address off) 32) := by decide

theorem witness_RegisterWritesStoreTheOperands :
    (hostOn (.write 0x1014 32 0xFFFFFFFF#32) idle).HostDoes
      (.write ((hostOn (.write 0x1014 32 0xFFFFFFFF#32) idle).address 0x14) 32 0xFFFFFFFF#32) := by decide

theorem witness_ReservedOffsetsReadZero : ∀ off ∈ [0x2C, 0xFC],
    0x2C ≤ off ∧ off < 0x100 ∧ off % 4 = 0
    ∧ (hostOn (.read (0x1000 + off) 32) idle).HostDoes
        (.read ((hostOn (.read (0x1000 + off) 32) idle).address off) 32) := by decide

theorem witness_RegisterReadsReturnTheValue :
    (hostOn (.read 0x1004 32) busy).HostDoes
      (.read ((hostOn (.read 0x1004 32) busy).address 0x04) 32) := by decide

/-- The first and the last byte of each buffer can be written and read by the host. -/
theorem witness_byteAccess : ∀ x ∈ [(Buffer.ibuf, 0), (.ibuf, 15), (.rbuf, 0), (.rbuf, 63)],
    x.2 < params.size x.1
    ∧ (hostOn (.write (byteAddress params x.1 x.2) 8 0xAA#32) idle).HostDoes
        (.write (byteAddress params x.1 x.2) 8 0xAA#32)
    ∧ (hostOn (.read (byteAddress params x.1 x.2) 8) busy).HostDoes
        (.read (byteAddress params x.1 x.2) 8) := by decide

theorem witness_HostByteWriteStoresTheByte : 63 < params.size .rbuf ∧ params.Ok ∧ idle.pending = false
    ∧ (hostOn (.write (byteAddress params .rbuf 63) 8 0xAA#32) idle).HostDoes
        (.write (byteAddress params .rbuf 63) 8 0xAA#32) := by decide

theorem witness_BusyBufferWriteIsHazard : busy.pending = true ∧ 15 < params.size .ibuf ∧ params.Ok
    ∧ (hostOn (.write (byteAddress params .ibuf 15) 8 0xAA#32) busy).HostDoes
        (.write (byteAddress params .ibuf 15) 8 0xAA#32) := by decide

/-- A pending EXTRACT of one written byte. -/
def extracting : State := pendingOn 0x70000000#32 (input [0x65#8] 0#32 1#32)

theorem witness_BusyReadsSeeTheStateBefore_register : extracting.pending = true ∧ extracting.params.Ok
    ∧ regAt 0xFC = some .reserved
    ∧ (hostOn (.read 0x10FC 32) extracting).HostDoes
        (.read ((hostOn (.read 0x10FC 32) extracting).address 0xFC) 32) := by decide

theorem witness_BusyReadsSeeTheStateBefore_ibuf : extracting.pending = true ∧ extracting.params.Ok
    ∧ 0 < extracting.params.ibufSize ∧ extracting.ibuf.read 0 = some 0x65#8
    ∧ (hostOn (.read (byteAddress params .ibuf 0) 8) extracting).HostDoes
        (.read (byteAddress params .ibuf 0) 8) := by decide

theorem witness_BusyReadsSeeTheStateBefore_rbuf : extracting.pending = true
    ∧ 63 < extracting.params.rbufSize ∧ extracting.latched = .ok .extract
    ∧ (hostOn (.read (byteAddress params .rbuf 63) 8) extracting).HostDoes
        (.read (byteAddress params .rbuf 63) 8) := by decide

/-- The only byte of RBUF, while RDBITS is pending on it. -/
theorem witness_BusyReadsSeeTheStateBefore_rbufContents : busy.pending = true
    ∧ busy.latched = .ok (.rdbits 8) ∧ Instr.rdbits 8 ≠ .extract ∧ 0 < busy.params.rbufSize
    ∧ busy.rbuf.read 0 = some 0xA5#8
    ∧ (hostOn (.read (byteAddress params .rbuf 0) 8) busy).HostDoes
        (.read (byteAddress params .rbuf 0) 8) := by decide

/-- The first byte of RBUF written, the last of IBUF and of RBUF not. -/
theorem witness_HostByteReadReturnsTheByte : params.Ok ∧ (cursorOver [0xA5#8]).pending = false
    ∧ (cursorOver [0xA5#8]).rbuf.read 0 = some 0xA5#8
    ∧ ∀ x ∈ [(Buffer.rbuf, 0), (.rbuf, 63), (.ibuf, 15)], x.2 < params.size x.1
      ∧ (hostOn (.read (byteAddress params x.1 x.2) 8) (cursorOver [0xA5#8])).HostDoes
          (.read (byteAddress params x.1 x.2) 8)
      ∧ (x.2 = 0 ∨ ((cursorOver [0xA5#8]).buffer x.1).read x.2 = none) := by decide

/-- A poll while BUSY = 1, and one that ends the WAIT. -/
theorem witness_WaitPollsUntilIdle : ∀ s ∈ [busy, idle],
    ({ s with host := [.wait], turns := [.host] } : State).HostMoves
    ∧ ({ s with host := [.wait], turns := [.host] } : State).host = .wait :: [] := by decide

theorem witness_HostReadsAreIdempotent :
    (∃ t, hostAccess (.read 0x101C 32) busy = .next t)
    ∧ ∃ t, hostAccess (.read (byteAddress params .rbuf 63) 8) extracting = .next t := ⟨⟨_, rfl⟩, _, rfl⟩

/-- A misaligned register read, and an access just before and just past each row of 20_memory.md R37, and one
of another row's width, is not admitted. -/
theorem witness_AccessOutsideTheMapIsHostErr : ∀ x ∈ [(0xFFF, 32), (0x1002, 32), (0x1100, 32), (0x1000, 8),
      (0x1000FFF, 8), (0x1001010, 8), (0x2000FFF, 8), (0x2001040, 8), (0x1001000, 32)],
    ¬(0x1000 ≤ x.1 ∧
      ((x.2 = 32 ∧ x.1 - 0x1000 < 0x100 ∧ (x.1 - 0x1000) % 4 = 0)
        ∨ (x.2 = 8 ∧ 0x01000000 ≤ x.1 - 0x1000 ∧ x.1 - 0x1000 < 0x01000000 + 16)
        ∨ (x.2 = 8 ∧ 0x02000000 ≤ x.1 - 0x1000 ∧ x.1 - 0x1000 < 0x02000000 + 64)))
    ∧ (hostOn (.read x.1 x.2) idle).HostDoes (.read x.1 x.2)
    ∧ (hostOn (.write x.1 x.2 0#32) busy).HostDoes (.write x.1 x.2 0#32) := by decide

theorem witness_AccessOutsideTheMapIsHostErr_admitted :
    ∀ x ∈ [(0x1000, 32), (0x10FC, 32), (0x1001000, 8), (0x100100F, 8), (0x2001000, 8), (0x200103F, 8)],
    (0x1000 ≤ x.1 ∧
      ((x.2 = 32 ∧ x.1 - 0x1000 < 0x100 ∧ (x.1 - 0x1000) % 4 = 0)
        ∨ (x.2 = 8 ∧ 0x01000000 ≤ x.1 - 0x1000 ∧ x.1 - 0x1000 < 0x01000000 + 16)
        ∨ (x.2 = 8 ∧ 0x02000000 ≤ x.1 - 0x1000 ∧ x.1 - 0x1000 < 0x02000000 + 64)))
    ∧ (hostOn (.read x.1 x.2) idle).HostDoes (.read x.1 x.2)
    ∧ (hostOn (.write x.1 x.2 0#32) idle).HostDoes (.write x.1 x.2 0#32) ∧ idle.pending = false := by decide

/-- An idle engine whose host runs RDBITS 1. -/
def scripted : State := idle.withProgram [.command (.rdbits 1)]

theorem witness_MnemonicRunsTheCommand :
    (Instr.rdbits 1).WellFormed ∧ scripted.pending = false ∧ scripted.turns = []
    ∧ scripted.ilen.toNat < 2 ^ 25 ∧ scripted.host = issueAndWait scripted.params (.rdbits 1) ++ []
    ∧ inRange scripted.params (.rdbits 1) scripted.arg0.toNat scripted.arg1.toNat scripted.ilen.toNat = true
    ∧ ∃ t, exec (.rdbits 1) { scripted with
        lcmd := encode (.rdbits 1), larg0 := scripted.arg0, larg1 := scripted.arg1,
        lilen := scripted.ilen.setWidth 25, pending := true, host := .wait :: [],
        draws := scripted.draws + 1 } = .next t :=
  ⟨by decide, rfl, rfl, by decide, rfl, rfl, _, rfl⟩

theorem witness_MnemonicRunsTheCommandInTurn :
    (Instr.rdbits 1).WellFormed ∧ scripted.pending = false
    ∧ ({ scripted with turns := [.host, .engine, .host] } : State).turns = .host :: .engine :: .host :: []
    ∧ scripted.ilen.toNat < 2 ^ 25 ∧ scripted.host = issueAndWait scripted.params (.rdbits 1) ++ []
    ∧ inRange scripted.params (.rdbits 1) scripted.arg0.toNat scripted.arg1.toNat scripted.ilen.toNat = true
    ∧ ∃ t, exec (.rdbits 1) { scripted with
        lcmd := encode (.rdbits 1), larg0 := scripted.arg0, larg1 := scripted.arg1,
        lilen := scripted.ilen.setWidth 25, pending := true, host := .wait :: [],
        turns := .host :: [], draws := scripted.draws + 1 } = .next t :=
  ⟨by decide, rfl, rfl, by decide, rfl, rfl, _, rfl⟩

theorem witness_RdbitsReadsTheField : (Instr.rdbits 32).WellFormed ∧ (cursorOver [0xA5#8]).CursorOk
    ∧ (cursorOver [0xA5#8]).ReadsBits (cursorOver [0xA5#8]).cursor 32
        (fun i => (0xA5000000#32).getLsbD (31 - i)) := by decide

theorem witness_RdbitsDependsOnTheCursorAlone :
    busy.rlen = (cursorOver [0xA5#8]).rlen ∧ busy.bitpos = (cursorOver [0xA5#8]).bitpos
    ∧ (∀ a < busy.rlen.toNat, busy.rbuf.read a = (cursorOver [0xA5#8]).rbuf.read a)
    ∧ see State.result (exec (.rdbits 8) busy) = some 0xA5#32 := by decide

theorem witness_RdbitsDependsOnTheCursorAlone_fault :
    exec (.rdbits 8) { idle with rlen := 1#32 } = .fault (.uninit .rbuf 0) := rfl

theorem witness_SplitReadsJoin :
    16 + 16 ≤ 32 ∧ ∃ t u, exec (.rdbits 16) (cursorOver [0xA5#8, 0xFF#8]) = .next t
      ∧ exec (.rdbits 16) t = .next u := ⟨by decide, _, _, rfl, rfl⟩

theorem witness_RdueDecodesEveryPrefix_code :
    (cursorOver [0x00#8, 0x00#8, 0x00#8, 0x01#8]).CursorOk
    ∧ (cursorOver [0x00#8, 0x00#8, 0x00#8, 0x01#8]).HasBits 0 (List.replicate 31 false)
    ∧ (cursorOver [0x00#8, 0x00#8, 0x00#8, 0x01#8]).HasBits (0 + 31) [true]
    ∧ (cursorOver [0x00#8, 0x00#8, 0x00#8, 0x01#8]).ReadsBits (0 + 31 + 1) 31 (fun _ => false) := by
  decide

theorem witness_RdueDecodesEveryPrefix_code_one :
    (cursorOver [0x80#8]).CursorOk ∧ (cursorOver [0x80#8]).HasBits 0 (List.replicate 0 false)
    ∧ (cursorOver [0x80#8]).HasBits (0 + 0) [true]
    ∧ (cursorOver [0x80#8]).ReadsBits (0 + 0 + 1) 0 (fun _ => false) := by decide

/-- A run of 1 zero and a run of 31 zeros that reach the end. -/
theorem witness_RdueDecodesEveryPrefix_end : ∀ x ∈ [(1, 31), (31, 1)],
    ({ cursorOver [0x00#8, 0x00#8, 0x00#8, 0x00#8] with bitpos := BitVec.ofNat 32 x.2 } : State).CursorOk
    ∧ ({ cursorOver [0x00#8, 0x00#8, 0x00#8, 0x00#8] with bitpos := BitVec.ofNat 32 x.2 } : State).HasBits x.2
        (List.replicate x.1 false)
    ∧ x.2 + x.1 = (cursorOver [0x00#8, 0x00#8, 0x00#8, 0x00#8]).endBit := by decide

theorem witness_RdueDecodesEveryPrefix_empty : idle.CursorOk
    ∧ idle.HasBits 0 (List.replicate 0 false) ∧ idle.cursor = idle.endBit := by decide

theorem witness_RdueDecodesEveryPrefix_zeros : (cursorOver [0x00#8, 0x00#8, 0x00#8, 0x00#8]).CursorOk
    ∧ (cursorOver [0x00#8, 0x00#8, 0x00#8, 0x00#8]).HasBits 0 (List.replicate 32 false) := by decide

theorem witness_RdueDecodesTheCodeOfEveryValue_least : (0 : Nat) ≤ 2 ^ 32 - 2 ∧ (cursorOver [0x80#8]).CursorOk
    ∧ (cursorOver [0x80#8]).HasBits 0 (ueCode 0) := by decide

theorem witness_RdueDecodesTheCodeOfEveryValue_largest :
    (cursorOver [0x00#8, 0x00#8, 0x00#8, 0x01#8, 0xFF#8, 0xFF#8, 0xFF#8, 0xFE#8]).HasBits 0
      (ueCode (2 ^ 32 - 2)) := by decide

theorem witness_RdseIsTheSignedMapOfRdue : (∃ t, exec .rdue (cursorOver [0x28#8]) = .next t)
    ∧ exec .rdue { idle with rlen := 1#32 } = .fault (.uninit .rbuf 0) := ⟨⟨_, rfl⟩, rfl⟩

theorem witness_RdseDecodesTheCodeOfEveryValue_least :
    (cursorOver [0x00#8, 0x00#8, 0x00#8, 0x01#8, 0xFF#8, 0xFF#8, 0xFF#8, 0xFE#8]).HasBits 0
      (seCode (-(2 ^ 31 - 1))) := by decide

theorem witness_RdseDecodesTheCodeOfEveryValue_largest :
    (cursorOver [0x00#8, 0x00#8, 0x00#8, 0x01#8, 0xFF#8, 0xFF#8, 0xFF#8, 0xFC#8]).HasBits 0
      (seCode (2 ^ 31 - 1)) := by decide

theorem witness_SkipslSkipsOneScalingList_short : IsScalingList 16 [-8]
    ∧ (∀ d ∈ [(-8 : Int)], -(2 ^ 31 - 1) ≤ d ∧ d ≤ 2 ^ 31 - 1)
    ∧ (cursorOver [0x08#8, 0x80#8]).CursorOk
    ∧ (cursorOver [0x08#8, 0x80#8]).HasBits 0 ([(-8 : Int)].flatMap seCode) := by decide

theorem witness_SkipslSkipsOneScalingList_full : IsScalingList 16 (List.replicate 16 0)
    ∧ (cursorOver [0xFF#8, 0xFF#8]).HasBits 0 ((List.replicate 16 (0 : Int)).flatMap seCode) := by decide

theorem witness_SkipslAtTheEndAttemptsEveryDelta : idle.endBit ≤ idle.cursor := by decide

theorem witness_CursorCommandsComplete : ∀ i ∈ [Instr.rdbits 1, .rdbits 32, .rdue, .rdse, .skipsl .sixteen,
      .skipsl .sixtyFour],
    isCursorCommand i = true ∧ i.WellFormed ∧ busy.CursorOk ∧ busy.CursorWritten := by decide

theorem witness_FindscFindsTheFirstStartCode_found :
    (input [0x00#8, 0x00#8, 0x00#8, 0x01#8, 0xAA#8] 0#32 0#32).larg0.toNat ≤ 0
    ∧ IsStartCode (listing 0 [0x00#8, 0x00#8, 0x00#8, 0x01#8, 0xAA#8]) 5 0 4
    ∧ (input [0x00#8, 0x00#8, 0x00#8, 0x01#8, 0xAA#8] 0#32 0#32).ibuf.WrittenIn 0 (0 + 4) := by decide

theorem witness_FindscFindsTheFirstStartCode_later :
    IsStartCode (listing 0 [0xAA#8, 0x00#8, 0x00#8, 0x01#8]) 4 1 3
    ∧ (∀ q < 1, 0 ≤ q → ∀ len ≤ 4, ¬IsStartCode (listing 0 [0xAA#8, 0x00#8, 0x00#8, 0x01#8]) 4 q len)
    ∧ (input [0xAA#8, 0x00#8, 0x00#8, 0x01#8] 0#32 0#32).ibuf.WrittenIn 0 (1 + 3) := by
  refine ⟨by decide, fun q hq _ len hl => ?_, by decide⟩
  interval_cases q; interval_cases len <;> decide

theorem witness_FindscFindsTheFirstStartCode_none :
    (input [0x00#8, 0x01#8] 0#32 0#32).larg0.toNat ≤ (input [0x00#8, 0x01#8] 0#32 0#32).lilen.toNat
    ∧ (input [0x00#8, 0x01#8] 0#32 0#32).ibuf.WrittenIn 0 2
    ∧ ∀ q < 2, 0 ≤ q → ∀ len ≤ 2, ¬IsStartCode (listing 0 [0x00#8, 0x01#8]) 2 q len := by
  refine ⟨by decide, by decide, fun q hq _ len hl => ?_⟩
  interval_cases q <;> interval_cases len <;> decide

theorem witness_FindscSignalsNotFound :
    (∃ t, exec .findsc (input [0x00#8, 0x00#8, 0x01#8] 0#32 0#32) = .next t) ∧ ∃ t, exec .findsc idle = .next t :=
  ⟨⟨_, rfl⟩, _, rfl⟩

theorem witness_ExtractRemovesEmulationBytes :
    [0x00#8, 0x00#8, 0x03#8, 0x01#8].length = (input [0x00#8, 0x00#8, 0x03#8, 0x01#8] 0#32 4#32).larg1.toNat
    ∧ ∀ j (h : j < [0x00#8, 0x00#8, 0x03#8, 0x01#8].length),
        (input [0x00#8, 0x00#8, 0x03#8, 0x01#8] 0#32 4#32).ibuf.read (0 + j)
          = some [0x00#8, 0x00#8, 0x03#8, 0x01#8][j] := by decide

theorem witness_ExtractRemovesEmulationBytes_empty : ([] : List Byte).length = idle.larg1.toNat := by decide

theorem witness_ExtractCopiesAUnitWithoutTheSequence :
    (∃ t, exec .extract (input [0x67#8, 0x42#8, 0x40#8, 0x00#8] 0#32 4#32) = .next t)
    ∧ ∀ j < 4, ¬([0x67#8, 0x42#8, 0x40#8, 0x00#8][j]? = some 0x00#8
        ∧ [0x67#8, 0x42#8, 0x40#8, 0x00#8][j + 1]? = some 0x00#8
        ∧ [0x67#8, 0x42#8, 0x40#8, 0x00#8][j + 2]? = some 0x03#8) := ⟨⟨_, rfl⟩, by decide⟩

theorem witness_ExtractReportsTheNalHeader :
    see (fun t => (decide (t.rlen ≠ 0#32), t.rbuf.read 0)) (exec .extract (input [0x65#8] 0#32 1#32))
      = some (true, some 0x65#8) := by decide

theorem witness_ExtractReportsTheNalHeader_empty :
    see (fun t => t.rlen) (exec .extract idle) = some 0#32 := by decide

theorem witness_CursorCommandsFrame : isCursorCommand (.rdbits 8) = true ∧ busy.CursorOk
    ∧ ∃ t, exec (.rdbits 8) busy = .next t := ⟨rfl, by decide, _, rfl⟩

theorem witness_NalCommandsAndCinitFrame : (∃ t, exec .findsc extracting = .next t)
    ∧ (∃ t, exec .extract extracting = .next t) ∧ ∃ t, exec .cinit extracting = .next t :=
  ⟨⟨_, rfl⟩, ⟨_, rfl⟩, _, rfl⟩

/-- An engine with operands over unwritten buffers. -/
def unwritten : State := { idle with rlen := 1#32, larg1 := 1#32, lilen := 1#25 }

theorem witness_UnwrittenByteIsUninit :
    (isCursorCommand .rdue = true ∧ Instr.rdue.WellFormed ∧ unwritten.cursor < unwritten.endBit
      ∧ unwritten.rbuf.read (unwritten.cursor / 8) = none)
    ∧ (unwritten.larg0.toNat < unwritten.lilen.toNat ∧ unwritten.ibuf.read unwritten.larg0.toNat = none)
    ∧ 0 < unwritten.larg1.toNat ∧ unwritten.ibuf.WrittenIn 0 (0 + 0)
    ∧ unwritten.ibuf.read (0 + 0) = none := by decide

/-- Two bytes of cursor buffer, the second unwritten. -/
def halfWritten (b : Byte) : State := { idle with rbuf := [(0, b)], rlen := 2#32 }

theorem witness_ReachedUnwrittenByteIsUninit_rdbits : (halfWritten 0#8).CursorOk
    ∧ (Instr.rdbits 9).WellFormed ∧ (Instr.rdbits 32).WellFormed
    ∧ (halfWritten 0#8).cursor + 8 < (halfWritten 0#8).endBit
    ∧ (∀ j < 8, ((halfWritten 0#8).rbuf.read (((halfWritten 0#8).cursor + j) / 8)).isSome = true)
    ∧ (halfWritten 0#8).rbuf.read (((halfWritten 0#8).cursor + 8) / 8) = none := by decide

/-- Eight zeros, and no zero, before the unwritten byte. -/
theorem witness_ReachedUnwrittenByteIsUninit_prefix :
    (halfWritten 0#8).HasBits 0 (List.replicate 8 false) ∧ (halfWritten 0#8).rbuf.read ((0 + 8) / 8) = none
    ∧ unwritten.HasBits 0 (List.replicate 0 false) ∧ unwritten.rbuf.read ((0 + 0) / 8) = none
    ∧ unwritten.CursorOk ∧ unwritten.cursor + 0 < unwritten.endBit := by decide

/-- Seven zeros and the 1 in the written byte, the suffix in the unwritten one; and five zeros, the 1 and two
bits of suffix in the written one. -/
theorem witness_ReachedUnwrittenByteIsUninit_suffix :
    (halfWritten 1#8).HasBits 0 (List.replicate 7 false ++ [true])
    ∧ (halfWritten 1#8).rbuf.read ((0 + 7 + 1 + 0) / 8) = none
    ∧ (halfWritten 4#8).HasBits 0 (List.replicate 5 false ++ [true])
    ∧ (∀ j < 2, ((halfWritten 4#8).rbuf.read ((0 + 5 + 1 + j) / 8)).isSome = true)
    ∧ (halfWritten 4#8).rbuf.read ((0 + 5 + 1 + 2) / 8) = none := by decide

/-- Eight zero deltas in the written byte, and then RDSE faults; and no delta before it. -/
theorem witness_ReachedUnwrittenByteIsUninit_skipsl :
    (List.replicate 8 (0 : Int)).length < ListSize.sixteen.entries
    ∧ (∀ k ≤ 8, (8 + ((List.replicate 8 (0 : Int)).take k).sum) % 256 ≠ 0)
    ∧ (halfWritten 0xFF#8).HasBits 0 ((List.replicate 8 (0 : Int)).flatMap seCode)
    ∧ exec .rdse { halfWritten 0xFF#8 with
        bitpos := zext32 (0 + ((List.replicate 8 (0 : Int)).flatMap seCode).length) }
        = .fault (.uninit .rbuf 1)
    ∧ exec .rdse { unwritten with bitpos := zext32 (0 + (([] : List Int).flatMap seCode).length) }
        = .fault (.uninit .rbuf 0) := ⟨by decide, by decide, by decide, rfl, rfl⟩

/-- A zero run that comes to the unwritten last byte. -/
def halfScanned : State := { idle with ibuf := [(0, 0#8), (1, 0#8)], lilen := 3#25 }

theorem witness_ReachedUnwrittenByteIsUninit_findsc : halfScanned.CursorOk
    ∧ halfScanned.larg0.toNat ≤ 2 ∧ 2 < halfScanned.lilen.toNat ∧ halfScanned.ibuf.WrittenIn 0 2
    ∧ halfScanned.ibuf.read 2 = none
    ∧ ∀ q ≥ halfScanned.larg0.toNat, ∀ len : Nat, ¬IsStartCode halfScanned.ibuf 2 q len :=
  ⟨by decide, by decide, by decide, by decide, by decide, fun q _ len h => by
    obtain ⟨h1, h2, -⟩ := h; omega⟩

theorem witness_CommandsFaultOnlyOnUnwrittenBytes :
    exec .rdue unwritten = .fault (.uninit .rbuf 0) ∧ exec .findsc unwritten = .fault (.uninit .ibuf 0)
    ∧ exec .extract unwritten = .fault (.uninit .ibuf 0) := ⟨rfl, rfl, rfl⟩

theorem witness_EveryLatchedCommandCompletes : busy.Inv ∧ busy.EngineRuns (.rdbits 8) ∧ busy.CursorWritten
    ∧ busy.ibuf.WrittenIn busy.larg0.toNat busy.lilen.toNat :=
  ⟨busy_inv, by decide, by decide, by decide⟩

theorem witness_FlagsAreClearedOnlyByTheirEvents_cursor :
    see (fun t => (t.trunc, t.malf))
      (step (pendingOn 0x10000000#32 { idle with trunc := true, malf := true })) = some (false, false) := by
  decide

theorem witness_FlagsAreClearedOnlyByTheirEvents_nosc :
    see (fun t => t.nosc) (step (pendingOn 0x60000000#32
      { input [0x00#8, 0x00#8, 0x01#8] 0#32 0#32 with nosc := true })) = some false := by decide

theorem witness_FlagsAreClearedOnlyByTheirEvents_host :
    see (fun t => (t.ill, t.ovr))
      (step (hostOn (.write 0x1004 32 0x30#32) { idle with ill := true, ovr := true }))
      = some (false, false) := by decide

theorem witness_FlagsAreSetOnlyByTheirEvents_cursor :
    see (fun t => (t.trunc, t.malf)) (step (pendingOn 0x30000000#32 (cursorOver [0x00#8]))) = some (true, true) := by
  decide

theorem witness_FlagsAreSetOnlyByTheirEvents_nosc :
    see (fun t => (t.nosc, t.pending)) (step (pendingOn 0x60000000#32 idle)) = some (true, false) := by decide

theorem witness_FlagsAreSetOnlyByTheirEvents_host :
    see (fun t => t.ill) (step (hostOn (.write 0x1000 32 0#32) idle)) = some true
    ∧ see (fun t => t.ovr) (step (hostOn (.write 0x1000 32 0#32) busy)) = some true
    ∧ see (fun t => t.pending) (step (hostOn (.write 0x1000 32 0x10000000#32) idle)) = some true := by decide

/-- The cursor moves at RDBITS, and the latch at a CMD write. -/
theorem witness_RegistersAreWrittenOnlyByTheirEvents_cursor :
    see (fun t => decide (t.bitpos ≠ busy.bitpos)) (step busy) = some true
    ∧ see (fun t => decide (t.lcmd ≠ idle.lcmd)) (step (hostOn (.write 0x1000 32 0x10000000#32) idle))
      = some true := by decide

theorem witness_RegistersAreWrittenOnlyByTheirEvents :
    ¬busy.ResetsNow ∧ see (fun t => decide (t.result ≠ busy.result)) (step busy) = some true := by decide

theorem witness_CursorNeverMovesBack : busy.CursorOk ∧ ¬busy.ResetsNow ∧ ¬busy.EngineRuns .cinit
    ∧ ¬busy.EngineRuns .extract ∧ see (fun t => t.bitpos) (step busy) = some 8#32 := by decide

theorem witness_PendingCommandIsUndisturbed :
    (hostOn (.write 0x100C 32 7#32) busy).pending = true ∧ (hostOn (.write 0x100C 32 7#32) busy).HostMoves
    ∧ ∃ t, step (hostOn (.write 0x100C 32 7#32) busy) = .next t := ⟨rfl, by decide, _, rfl⟩

theorem witness_InstancesShareNothing : (0 : Nat) ≠ 1 ∧ ∃ a ab : Platform,
    Platform.stepAt [busy, extracting] 0 = .next a ∧ a.stepAt 1 = .next ab :=
  ⟨by decide, _, _, rfl, rfl⟩

end Sys2Proof.Tests
end

namespace Sys2Proof.Machine

/-! ### The parameters stay constant (00_scope.md R7, 10_state.md R16) -/

@[simp] theorem writeByte_params (s : State) (b : Buffer) (a : Nat) (v : Byte) :
    (s.writeByte b a v).params = s.params := by
  cases b <;> rfl

@[simp] theorem regWrite_params (s : State) (r : Reg) (v : Word) :
    (s.regWrite r v).params = s.params := by
  rw [regWrite_frame]

@[simp] theorem hostWait_params (rest : List HostOp) (s : State) :
    (hostWait rest s).params = s.params := by
  unfold hostWait
  split <;> rfl

theorem exec_params {i : Instr} {s t : State} (h : exec i s = .next t) : t.params = s.params := by
  rw [exec_frame h]

theorem hostAccess_params {a : BusAccess} {s t : State} (h : hostAccess a s = .next t) :
    t.params = s.params := by
  obtain ⟨_, _, _, -, rfl⟩ | ⟨_, _, _, -, -, rfl⟩ | ⟨_, _, _, _, -, -, -, rfl⟩ := hostAccess_next h
  · exact reply_params ..
  · rw [tick_params, regWrite_params]
  · rw [tick_params, writeByte_params]

/-- Settles O12, by the cases of a step: a reset keeps the parameters by its definition, and each other case by
the frame of the command, of the poll or of the bus access it performs. -/
theorem noStepChangesTheParameters : Obligations.NoStepChangesTheParameters := by
  intro s t h
  rcases step_cases h with ⟨-, rfl⟩ | ⟨i, u, -, hx, rfl⟩ | ⟨-, rfl⟩ | ⟨-, rest, -, rfl⟩ | ⟨a, -, ha⟩
  · rw [resetTurn_params]
  · rw [complete_params, exec_params hx]
  · rfl
  · rw [hostWait_params]
  · rw [hostAccess_params ha, afterHead_params]

end Sys2Proof.Machine

namespace Sys2Proof.Machine

/-! ### The invariant (10_state.md R30, R35) -/

/-- The invariant speaks of the parameters, six registers and the two buffers alone. -/
theorem State.Inv.of_eq {s t : State} (h : s.Inv) (params : t.params = s.params := by rfl)
    (ilen : t.ilen = s.ilen := by rfl) (rlen : t.rlen = s.rlen := by rfl)
    (bitpos : t.bitpos = s.bitpos := by rfl) (scpos : t.scpos = s.scpos := by rfl)
    (nalhdr : t.nalhdr = s.nalhdr := by rfl) (lilen : t.lilen = s.lilen := by rfl)
    (ibuf : t.ibuf = s.ibuf := by rfl) (rbuf : t.rbuf = s.rbuf := by rfl) : t.Inv := by
  obtain ⟨h1, h2, h3, h4, h5, h6, h7, h8, h9, h10, h11⟩ := h
  simp only [State.cursor, State.endBit] at h4
  constructor <;>
    simpa only [State.cursor, State.endBit, params, ilen, rlen, bitpos, scpos, nalhdr, lilen, ibuf, rbuf]

theorem resetWith_inv {p : Params} (ok : p.Ok) : (State.resetWith p).Inv where
  params := ok
  ilen := Nat.zero_le _
  rlen := Nat.zero_le _
  bitpos := Nat.le_refl _
  scpos := Nat.zero_le _
  nalhdr := show (0 : Word).toNat < 2 ^ 9 by decide
  lilen := Nat.zero_le _
  ibufForm := Memory.wf_nil
  ibufWithin := Memory.within_nil _
  rbufForm := Memory.wf_nil
  rbufWithin := Memory.within_nil _

/-- Settles O8: every bound is one of a zero register or of an empty buffer, and no command is pending. -/
theorem resetMeetsTheInvariant : Obligations.ResetMeetsTheInvariant :=
  ⟨fun _ ok => ⟨resetWith_inv ok, nofun⟩, resetWith_inv (by decide)⟩

/-- A command that passes `Legal` has its operands in range. -/
theorem legal_inRange {p : Params} {w : Word} {a0 a1 il : Nat} {i : Instr}
    (h : legal p w a0 a1 il = .ok i) : inRange p i a0 a1 il = true := by
  unfold legal at h
  split at h
  · split at h
    · cases h; assumption
    · cases h
  · cases h

theorem legal_cinit {p : Params} {w : Word} {a0 a1 il : Nat} (h : legal p w a0 a1 il = .ok .cinit) :
    a0 ≤ p.rbufSize := by
  simpa [inRange] using legal_inRange h

theorem legal_extract {p : Params} {w : Word} {a0 a1 il : Nat} (h : legal p w a0 a1 il = .ok .extract) :
    a1 ≤ p.rbufSize := by
  have := legal_inRange h
  simp only [inRange, Bool.and_eq_true, decide_eq_true_eq] at this
  exact this.2

theorem cursorCommand_keeps_inv {i : Instr} {s t : State} (hi : isCursorCommand i = true) (hs : s.Inv)
    (h : exec i s = .next t) : t.Inv := by
  obtain ⟨u, v, hu, rfl⟩ := exec_cursor_next hi h
  have size : s.rlen.toNat ≤ 2 ^ 24 := Nat.le_trans hs.rlen hs.params.2.2
  have moved : ({ s with bitpos := u.bitpos } : State).Inv :=
    { hs with bitpos := by have := (hu.bitpos hs.bitpos size).2; rwa [hu.endBit] at this }
  rw [hu.frame]
  exact moved.of_eq

theorem initCursor_keeps_inv {s : State} (hs : s.Inv) {len : Word} (h : len.toNat ≤ s.params.rbufSize) :
    (s.initCursor len).Inv :=
  { hs with rlen := h, bitpos := Nat.zero_le _ }

theorem findsc_keeps_inv {s t : State} (hs : s.Inv) (h : exec .findsc s = .next t) : t.Inv := by
  obtain ⟨p, len, -, rfl, hp⟩ := execFindsc_next h
  have hil : s.ilenValue ≤ 2 ^ 24 := Nat.le_trans hs.lilen hs.params.1.2
  have hp : p ≤ 2 ^ 24 := by
    rcases hp with ⟨-, -, hle, -⟩ | ⟨rfl, -⟩ <;> omega
  exact { hs with scpos := by show (zext32 p).toNat ≤ _; rwa [zext32_toNat (by omega)] }

/-- The word EXTRACT writes to NALHDR has its bits 31:9 zero (10_state.md R29). -/
theorem nalHeaderWord_lt (out : List Byte) :
    (match out with
      | [] => 0#32
      | h :: _ => 0x100#32 ||| h.setWidth 32 : Word).toNat < 2 ^ 9 := by
  cases out with
  | nil => decide
  | cons h _ =>
    rw [BitVec.toNat_or, BitVec.toNat_setWidth]
    exact Nat.or_lt_two_pow (by decide) (Nat.lt_of_le_of_lt (Nat.mod_le _ _) (by omega))

theorem extract_keeps_inv {s t : State} (hs : s.Inv) (hl : s.larg1.toNat ≤ s.params.rbufSize)
    (h : exec .extract s = .next t) : t.Inv := by
  obtain ⟨bs, hbs, -, rfl⟩ := execExtract_next h
  have out : (strip 0 bs).length ≤ s.params.rbufSize := by
    have := strip_length_le 0 bs
    simp only [State.arg1Value] at hbs
    omega
  have size := hs.params.2.2
  exact { hs with
    rlen := by show (zext32 _).toNat ≤ _; rwa [zext32_toNat (by omega)]
    bitpos := Nat.zero_le _
    nalhdr := nalHeaderWord_lt _
    rbufForm := wf_writeAll hs.rbufForm _ _
    rbufWithin := within_writeAll hs.rbufWithin _ _ (by omega) }

/-- A latched command keeps the invariant. -/
theorem exec_keeps_inv {i : Instr} {s t : State} (hs : s.Inv) (hl : s.latched = .ok i)
    (h : exec i s = .next t) : t.Inv := by
  cases i with
  | cinit => cases h; exact initCursor_keeps_inv hs (legal_cinit hl)
  | rdbits n => exact cursorCommand_keeps_inv rfl hs h
  | rdue => exact cursorCommand_keeps_inv rfl hs h
  | rdse => exact cursorCommand_keeps_inv rfl hs h
  | skipsl size => exact cursorCommand_keeps_inv rfl hs h
  | findsc => exact findsc_keeps_inv hs h
  | extract => exact extract_keeps_inv hs (legal_extract hl) h

theorem issue_keeps_inv {s : State} (hs : s.Inv) (w : Word) : (s.issue w).Inv := by
  rcases issue_cases s w with ⟨-, h⟩ | ⟨-, r, -, h⟩ | ⟨-, i, -, h⟩ <;> rw [h]
  · exact hs.of_eq
  · exact hs.of_eq
  · exact { hs with
      lilen := Nat.le_trans (by rw [latch_lilen, BitVec.toNat_setWidth]; exact Nat.mod_le _ _) hs.ilen }

theorem clampIlen_toNat (p : Params) (v : Word) : (clampIlen p v).toNat = min v.toNat p.ibufSize := by
  rw [clampIlen, BitVec.toNat_ofNat, Nat.mod_eq_of_lt (Nat.lt_of_le_of_lt (Nat.min_le_left _ _) v.isLt)]

theorem regWrite_keeps_inv {s : State} (hs : s.Inv) (r : Reg) (v : Word) : (s.regWrite r v).Inv := by
  cases r with
  | cmd => exact issue_keeps_inv hs v
  | status => exact hs.of_eq
  | arg0 => exact hs.of_eq
  | arg1 => exact hs.of_eq
  | ilen => exact { hs with ilen := (clampIlen_toNat s.params v).trans_le (Nat.min_le_right _ _) }
  | result => exact hs
  | rlen => exact hs
  | bitpos => exact hs
  | deficit => exact hs
  | scpos => exact hs
  | nalhdr => exact hs
  | reserved => exact hs

theorem writeByte_keeps_inv {s : State} (hs : s.Inv) {b : Buffer} {a : Nat} (v : Byte)
    (ha : a < s.params.size b) : (s.writeByte b a v).Inv := by
  cases b with
  | ibuf => exact { hs with
      ibufForm := Memory.wf_write hs.ibufForm _ _, ibufWithin := Memory.within_write hs.ibufWithin ha _ }
  | rbuf => exact { hs with
      rbufForm := Memory.wf_write hs.rbufForm _ _, rbufWithin := Memory.within_write hs.rbufWithin ha _ }

theorem hostAccess_keeps_inv {a : BusAccess} {s t : State} (hs : s.Inv) (h : hostAccess a s = .next t) :
    t.Inv := by
  obtain ⟨_, _, _, -, rfl⟩ | ⟨_, r, v, -, -, rfl⟩ | ⟨_, b, k, v, -, hb, -, rfl⟩ := hostAccess_next h
  · exact hs.of_eq
  · exact (regWrite_keeps_inv hs r v).of_eq
  · exact (writeByte_keeps_inv hs _ (targetAt_byte (busTarget_some hb).2).2.1).of_eq

theorem hostWait_keeps_inv {s : State} (hs : s.Inv) (rest : List HostOp) : (hostWait rest s).Inv := by
  unfold hostWait
  split <;> exact hs.of_eq

/-- Settles O9, by the cases of a step: each agent's turn keeps the bounds, a command because `Legal` holds of
the latch it runs from. -/
theorem everyStepKeepsTheInvariant : Obligations.EveryStepKeepsTheInvariant := by
  intro s t hs h
  have turned : ({ s with turns := s.turns.tail } : State).Inv := hs.of_eq
  rcases step_cases h with ⟨-, rfl⟩ | ⟨i, u, ⟨-, -, hl⟩, hx, rfl⟩ | ⟨-, rfl⟩ | ⟨-, rest, -, rfl⟩ | ⟨a, -, ha⟩
  · exact (resetWith_inv hs.params).of_eq
  · exact (exec_keeps_inv turned hl hx).of_eq
  · exact turned
  · exact hostWait_keeps_inv turned rest
  · exact hostAccess_keeps_inv (s := s.afterHead) hs.of_eq ha

/-- The invariant holds of every reachable state. -/
theorem reachable_inv {s : State} (h : Reachable s) : s.Inv := by
  induction h with
  | reset p ok => exact resetWith_inv ok
  | step _ hs ih => exact everyStepKeepsTheInvariant _ _ ih hs
  | environment _ host turns ih => exact ih.of_eq

theorem getLsbD_eq_false_of_lt {w : Word} {n i : Nat} (h : w.toNat < 2 ^ n) (hi : n ≤ i) :
    w.getLsbD i = false :=
  Nat.testBit_lt_two_pow (Nat.lt_of_lt_of_le h (Nat.pow_le_pow_right (by omega) hi))

/-- STATUS[31:6] is 0 (10_state.md R21). -/
theorem statusWord_high (s : State) {i : Nat} (hi : 6 ≤ i) : s.statusWord.getLsbD i = false := by
  rw [statusWord_getLsbD]
  simp [show i ≠ 0 by omega, show i ≠ 1 by omega, show i ≠ 2 by omega, show i ≠ 3 by omega,
    show i ≠ 4 by omega, show i ≠ 5 by omega]

/-- Settles O10: the bounds are the invariant's, which every reachable state meets; STATUS is a view of the
flags in any state. -/
theorem reachableStatesMeetTheBounds : Obligations.ReachableStatesMeetTheBounds := by
  intro s h
  have hs := reachable_inv h
  exact ⟨hs.ilen, hs.rlen, hs.bitpos, hs.scpos, fun _ hi => statusWord_high s hi,
    fun _ hi => getLsbD_eq_false_of_lt hs.nalhdr hi, (statusWord_getLsbD s 0).trans (by simp)⟩

end Sys2Proof.Machine

namespace Sys2Proof.Machine

/-! ### The host's register accesses (10_state.md R19 to R24) -/

theorem busTarget_address (s : State) {off : Nat} {r : Reg} (h : regAt off = some r) :
    busTarget s.params (s.address off) 32 = some (.reg r) := by
  rw [State.address, busTarget_offset, targetAt, if_pos rfl, h]
  rfl

theorem step_registerWrite {s : State} {off : Nat} {r : Reg} {v : Word} (hr : regAt off = some r)
    (h : s.HostDoes (.write (s.address off) 32 v)) : step s = .next (hostWrite r v s.afterHead) := by
  rw [step_hostDoes h]
  simp only [hostAccess, afterHead_params, busTarget_address s hr]

theorem step_registerRead {s : State} {off : Nat} {r : Reg} (hr : regAt off = some r)
    (h : s.HostDoes (.read (s.address off) 32)) :
    step s = .next { s.afterHead with replies := .word r (s.regRead r) :: s.replies } := by
  rw [step_hostDoes h]
  simp only [hostAccess, afterHead_params, busTarget_address s hr]
  cases r <;> rfl

/-- Writing 1 clears a flag, writing 0 leaves it (10_state.md R21). -/
theorem clearedBy_eq_ite (f b : Bool) : (f && !b) = if b = true then false else f := by
  cases f <;> cases b <;> rfl

/-- Settles O18: the write reaches STATUS, whose effect is on ILL and OVR alone. -/
theorem statusWriteClearsIllAndOvr : Obligations.StatusWriteClearsIllAndOvr := by
  intro s v h
  rw [step_registerWrite rfl h, ← clearedBy_eq_ite, ← clearedBy_eq_ite]
  rfl

/-- Settles O19: each write reaches its register, and the stored word is the one `regWrite` gives. -/
theorem registerWritesStoreTheOperands : Obligations.RegisterWritesStoreTheOperands := by
  intro s v
  refine ⟨fun h => step_registerWrite (r := .arg0) rfl h, fun h => step_registerWrite (r := .arg1) rfl h,
    fun h => ⟨clampIlen s.params v, clampIlen_toNat s.params v, step_registerWrite (r := .ilen) rfl h⟩,
    fun off hoff h => ?_⟩
  simp only [List.mem_cons, List.not_mem_nil, or_false] at hoff
  rcases hoff with rfl | rfl | rfl | rfl | rfl | rfl <;> exact step_registerWrite rfl h

/-- Settles O21: each read reaches its register and is answered with `regRead`; the bits of STATUS are
those of `statusWord`. -/
theorem registerReadsReturnTheValue : Obligations.RegisterReadsReturnTheValue := by
  intro s
  refine ⟨fun x hx h => ?_, fun h => ⟨s.statusWord, step_registerRead rfl h, ?_⟩⟩
  · simp only [List.mem_cons, List.not_mem_nil, or_false] at hx
    rcases hx with rfl | rfl | rfl | rfl | rfl | rfl | rfl | rfl | rfl | rfl <;>
      exact step_registerRead rfl h
  · refine ⟨?_, ?_, ?_, ?_, ?_, ?_, fun _ hi => statusWord_high s hi⟩ <;>
      rw [statusWord_getLsbD] <;> simp

end Sys2Proof.Machine

namespace Sys2Proof.Machine

/-! ### What each kind of command changes (10_state.md R22 to R29, 60_exceptions.md R97) -/

theorem command_kinds (i : Instr) :
    isCursorCommand i = true ∨ i = .cinit ∨ i = .findsc ∨ i = .extract := by
  cases i <;> simp [isCursorCommand]

theorem exec_cursor_frame {i : Instr} {s t : State} (hi : isCursorCommand i = true)
    (h : exec i s = .next t) :
    t = { s with result := t.result, bitpos := t.bitpos, trunc := t.trunc, malf := t.malf,
                 deficit := t.deficit } := by
  obtain ⟨u, v, hu, rfl⟩ := exec_cursor_next hi h
  rw [hu.frame]

theorem exec_findsc_frame {s t : State} (h : exec .findsc s = .next t) :
    t = { s with scpos := t.scpos, result := t.result, nosc := t.nosc } := by
  obtain ⟨p, len, -, rfl, -⟩ := execFindsc_next h
  rfl

theorem exec_extract_frame {s t : State} (h : exec .extract s = .next t) :
    t = { s with rlen := t.rlen, bitpos := t.bitpos, deficit := t.deficit, nalhdr := t.nalhdr,
                 trunc := t.trunc, malf := t.malf, rbuf := t.rbuf } := by
  obtain ⟨bs, -, -, rfl⟩ := execExtract_next h
  rfl

theorem exec_cinit_next {s t : State} (h : exec .cinit s = .next t) : t = s.initCursor s.larg0 := by
  cases h
  rfl

theorem exec_rdbits_malf {n : Nat} {s t : State} (h : exec (.rdbits n) s = .next t) :
    t.malf = s.malf := by
  simp only [exec, execRdbits, writeResult] at h
  split at h
  · rename_i hr
    cases h
    exact (readBitsFrom_moves hr).2.1
  · cases h

/-- Settles O44: a cursor command only moves the cursor and then writes RESULT. -/
theorem cursorCommandsFrame : Obligations.CursorCommandsFrame := by
  intro s t i hi ⟨hr, hc⟩ h
  have frame := exec_cursor_frame hi h
  refine ⟨frame, fun b a => ?_, ?_⟩
  · rw [frame]
    cases b <;> rfl
  · obtain ⟨u, v, hu, rfl⟩ := exec_cursor_next hi h
    obtain ⟨forward, inside⟩ := hu.bitpos hc hr
    refine ⟨hu.trunc, hu.malf, ?_, forward, inside, hu.deficit, hu.signalled⟩
    rintro n rfl
    exact exec_rdbits_malf h

/-! ### NALHDR (10_state.md R29) -/

/-- The fields of the header word `0x100 | h`. -/
theorem validHeader_getLsbD (h : Byte) (i : Nat) :
    (0x100#32 ||| h.setWidth 32).getLsbD i = (decide (i = 8) || h.getLsbD i) := by
  rw [BitVec.getLsbD_or, BitVec.getLsbD_setWidth,
    show (0x100#32 : Word) = BitVec.ofNat 32 (2 ^ 8) from rfl, BitVec.getLsbD_ofNat, Nat.testBit_two_pow]
  by_cases hi : i < 32
  · simp [hi, eq_comm]
  · have : h.getLsbD i = false := BitVec.getLsbD_of_ge _ _ (by omega)
    simp [this, show i ≠ 8 by omega, show 8 ≠ i by omega]

/-- Settles O43, by the two forms of EXTRACT's output: an empty one, and one that begins with a byte. -/
theorem extractReportsTheNalHeader : Obligations.ExtractReportsTheNalHeader := by
  intro s t h
  obtain ⟨bs, hbs, -, rfl⟩ := execExtract_next h
  have hlt : (strip 0 bs).length < 2 ^ 32 := by
    have := strip_length_le 0 bs
    have := s.larg1.isLt
    simp only [State.arg1Value] at hbs
    omega
  have rlen : (zext32 (strip 0 bs).length).toNat = (strip 0 bs).length := zext32_toNat hlt
  cases hout : strip 0 bs with
  | nil => exact ⟨fun _ hne => absurd rfl hne, fun _ => rfl⟩
  | cons b rest =>
    simp only [hout] at rlen
    refine ⟨fun h _ hh => ?_, fun h0 => ?_⟩
    · have hb : h = b := by
        rw [writeAll_read] at hh
        simpa using hh.symm
      subst hb
      simp only [validHeader_getLsbD]
      refine ⟨fun i hi => ?_, by simp, fun i hi => ?_⟩
      · simp [show i ≠ 8 by omega]
      · simp [show i ≠ 8 by omega, BitVec.getLsbD_of_ge _ i (show 8 ≤ i by omega)]
    · have h0 : zext32 (b :: rest).length = 0#32 := h0
      rw [h0] at rlen
      simp at rlen

end Sys2Proof.Machine

namespace Sys2Proof.Machine

/-! ### What a step that is no reset can change, and by which event -/

/-- `t` and `s` agree on the registers that the engine alone writes (10_state.md R21 to R29). -/
structure SameEngineRegisters (s t : State) : Prop where
  result : t.result = s.result
  rlen : t.rlen = s.rlen
  bitpos : t.bitpos = s.bitpos
  deficit : t.deficit = s.deficit
  scpos : t.scpos = s.scpos
  nalhdr : t.nalhdr = s.nalhdr
  trunc : t.trunc = s.trunc
  malf : t.malf = s.malf
  nosc : t.nosc = s.nosc

/-- `t` and `s` agree on the registers that the host alone writes and on the latch (10_state.md R21 to R24,
R31), and no command has become pending. -/
structure SameHostRegisters (s t : State) : Prop where
  arg0 : t.arg0 = s.arg0
  arg1 : t.arg1 = s.arg1
  ilen : t.ilen = s.ilen
  ill : t.ill = s.ill
  ovr : t.ovr = s.ovr
  lcmd : t.lcmd = s.lcmd
  larg0 : t.larg0 = s.larg0
  larg1 : t.larg1 = s.larg1
  lilen : t.lilen = s.lilen
  pending : t.pending = true → s.pending = true

/-- `t` is `s` but for the model's own lists, replies and counter. -/
abbrev SameHardware (s t : State) : Prop :=
  t = { s with host := t.host, turns := t.turns, replies := t.replies, draws := t.draws }

theorem SameHardware.engineRegisters {s t : State} (h : SameHardware s t) : SameEngineRegisters s t := by
  constructor <;> rw [h]

theorem SameHardware.hostRegisters {s t : State} (h : SameHardware s t) : SameHostRegisters s t := by
  constructor <;> rw [h]
  exact id

theorem regAt_offset {off : Nat} {r : Reg} (h : regAt off = some r) (hr : r ≠ .reserved) :
    off = r.offset := by
  unfold regAt at h
  split at h
  case h_12 =>
    split at h
    · cases h
      exact absurd rfl hr
    · cases h
  all_goals cases h; rfl

theorem busTarget_eq_reg {p : Params} {addr bits : Nat} {r : Reg}
    (h : busTarget p addr bits = some (.reg r)) (hr : r ≠ .reserved) : addr = p.blockBase + r.offset := by
  obtain ⟨hb, ht⟩ := busTarget_some h
  have := regAt_offset (targetAt_reg ht).2 hr
  omega

theorem busTarget_eq_byte {p : Params} {addr bits a : Nat} {b : Buffer}
    (h : busTarget p addr bits = some (.byte b a)) : a < p.size b ∧ addr = byteAddress p b a := by
  obtain ⟨hb, ht⟩ := busTarget_some h
  obtain ⟨-, ha, ho⟩ := targetAt_byte ht
  refine ⟨ha, ?_⟩
  cases b <;> simp only [byteAddress] at ho ⊢ <;> omega

/-- The host writes the register `r`, and `t` is the next state. -/
abbrev HostWritesRegister (s t : State) (r : Reg) (v : Word) : Prop :=
  s.HostDoes (.write (s.address r.offset) 32 v) ∧ t = hostWrite r v s.afterHead

/-- The host writes byte `a` of buffer `b`, and `t` is the next state. -/
abbrev HostWritesByte (s t : State) (b : Buffer) (a : Nat) (v : Word) : Prop :=
  a < s.params.size b ∧ s.HostDoes (.write (byteAddress s.params b a) 8 v)
    ∧ t = (s.afterHead.writeByte b a (v.setWidth 8)).tick

/-- The engine runs the command `i`, which leads to `u`, and `t` is the state after its completion. -/
abbrev EngineCompletes (s t : State) (i : Instr) (u : State) : Prop :=
  s.EngineRuns i ∧ exec i { s with turns := s.turns.tail } = .next u ∧ t = u.complete

/-- The events of a step that is no reset: a command's completion, a host write of a register or of a buffer
byte, or none that the hardware notices. -/
theorem step_events {s t : State} (h : step s = .next t) (hr : ¬s.ResetsNow) :
    (∃ i u, EngineCompletes s t i u) ∨ (∃ r v, HostWritesRegister s t r v)
      ∨ (∃ b a v, HostWritesByte s t b a v) ∨ SameHardware s t := by
  rcases step_cases h with ⟨hn, -⟩ | ⟨i, u, hi⟩ | ⟨-, rfl⟩ | ⟨-, rest, -, rfl⟩ | ⟨a, hd, ha⟩
  · exact absurd hn hr
  · exact .inl ⟨i, u, hi⟩
  · exact .inr (.inr (.inr rfl))
  · refine .inr (.inr (.inr ?_))
    unfold hostWait
    split <;> rfl
  · obtain ⟨_, _, _, -, rfl⟩ | ⟨addr, r, v, rfl, hb, rfl⟩ | ⟨addr, b, k, v, rfl, hb, -, rfl⟩ :=
      hostAccess_next ha
    · exact .inr (.inr (.inr rfl))
    · by_cases hres : r = .reserved
      · subst hres
        exact .inr (.inr (.inr rfl))
      · obtain rfl := busTarget_eq_reg hb hres
        exact .inr (.inl ⟨r, v, hd, rfl⟩)
    · obtain ⟨hk, rfl⟩ := busTarget_eq_byte hb
      exact .inr (.inr (.inl ⟨b, k, v, hk, hd, rfl⟩))

theorem hostWrite_engineRegisters (r : Reg) (v : Word) (s : State) :
    SameEngineRegisters s (hostWrite r v s.afterHead) := by
  unfold hostWrite
  constructor <;> rw [regWrite_frame] <;> rfl

theorem hostWrite_buffers (r : Reg) (v : Word) (s : State) :
    (hostWrite r v s.afterHead).ibuf = s.ibuf ∧ (hostWrite r v s.afterHead).rbuf = s.rbuf := by
  unfold hostWrite
  constructor <;> rw [regWrite_frame] <;> rfl

theorem writeByte_engineRegisters (b : Buffer) (a : Nat) (v : Byte) (s : State) :
    SameEngineRegisters s (s.afterHead.writeByte b a v).tick := by
  cases b <;> constructor <;> rfl

/-- A register that the engine alone writes changes only at a completion. -/
theorem step_engineRegisters {s t : State} (h : step s = .next t) (hr : ¬s.ResetsNow) :
    (∃ i u, EngineCompletes s t i u) ∨ SameEngineRegisters s t := by
  rcases step_events h hr with h | ⟨r, v, -, rfl⟩ | ⟨b, a, v, -, -, rfl⟩ | h
  · exact .inl h
  · exact .inr (hostWrite_engineRegisters r v s)
  · exact .inr (writeByte_engineRegisters b a _ s)
  · exact .inr h.engineRegisters

theorem complete_hostRegisters {i : Instr} {s u : State} {ts : List Turn}
    (h : exec i { s with turns := ts } = .next u) : SameHostRegisters s u.complete := by
  rw [exec_frame h]
  constructor
  case pending => nofun
  all_goals rfl

theorem writeByte_hostRegisters (b : Buffer) (a : Nat) (v : Byte) (s : State) :
    SameHostRegisters s (s.afterHead.writeByte b a v).tick := by
  cases b <;> exact ⟨rfl, rfl, rfl, rfl, rfl, rfl, rfl, rfl, rfl, id⟩

/-- A register that the host alone writes, and the latch, change only at a host write of a register. -/
theorem step_hostRegisters {s t : State} (h : step s = .next t) (hr : ¬s.ResetsNow) :
    (∃ r v, HostWritesRegister s t r v) ∨ SameHostRegisters s t := by
  rcases step_events h hr with ⟨i, u, -, hx, rfl⟩ | h | ⟨b, a, v, -, -, rfl⟩ | h
  · exact .inr (complete_hostRegisters hx)
  · exact .inl h
  · exact .inr (writeByte_hostRegisters b a _ s)
  · exact .inr h.hostRegisters

end Sys2Proof.Machine

namespace Sys2Proof.Machine

/-! ### Who writes what (10_state.md R21 to R31) -/

/-- Which command changes which of the registers the engine writes, and RBUF. -/
theorem exec_writes {i : Instr} {s t : State} (h : exec i s = .next t) :
    (t.result ≠ s.result → isCursorCommand i = true ∨ i = .findsc)
    ∧ (t.rlen ≠ s.rlen → i = .cinit ∨ i = .extract)
    ∧ (t.scpos ≠ s.scpos → i = .findsc)
    ∧ (t.nalhdr ≠ s.nalhdr → i = .extract)
    ∧ (t.rbuf ≠ s.rbuf → i = .extract)
    ∧ (t.bitpos ≠ s.bitpos ∨ t.deficit ≠ s.deficit →
        isCursorCommand i = true ∨ i = .cinit ∨ i = .extract) := by
  rcases command_kinds i with hi | rfl | rfl | rfl
  · rw [exec_cursor_frame hi h]
    simp [hi]
  · rw [exec_cinit_next h]
    simp
  · rw [exec_findsc_frame h]
    simp
  · rw [exec_extract_frame h]
    simp

theorem issue_frame (s : State) (w : Word) :
    s.issue w = { s with
      ill := (s.issue w).ill, ovr := (s.issue w).ovr, pending := (s.issue w).pending,
      lcmd := (s.issue w).lcmd, larg0 := (s.issue w).larg0, larg1 := (s.issue w).larg1,
      lilen := (s.issue w).lilen, illReason := (s.issue w).illReason } := by
  rcases issue_cases s w with ⟨-, h⟩ | ⟨-, r, -, h⟩ | ⟨-, i, -, h⟩ <;> rw [h] <;> rfl

/-- Which register write changes which operand register, and the latch. -/
theorem hostWrite_writes (r : Reg) (v : Word) (s : State) :
    ((hostWrite r v s.afterHead).arg0 ≠ s.arg0 → r = .arg0)
    ∧ ((hostWrite r v s.afterHead).arg1 ≠ s.arg1 → r = .arg1)
    ∧ ((hostWrite r v s.afterHead).ilen ≠ s.ilen → r = .ilen)
    ∧ ((hostWrite r v s.afterHead).lcmd ≠ s.lcmd ∨ (hostWrite r v s.afterHead).larg0 ≠ s.larg0
        ∨ (hostWrite r v s.afterHead).larg1 ≠ s.larg1 ∨ (hostWrite r v s.afterHead).lilen ≠ s.lilen →
        r = .cmd) := by
  cases r
  case cmd =>
    simp only [hostWrite, State.regWrite]
    rw [issue_frame]
    simp
  all_goals simp [hostWrite, State.regWrite]

section
variable {s t : State} (h : step s = .next t) (hr : ¬s.ResetsNow)
include h hr

theorem step_writes_engineRegisters :
    (t.result ≠ s.result → ∃ i, s.EngineRuns i ∧ (isCursorCommand i = true ∨ i = .findsc))
    ∧ (t.rlen ≠ s.rlen → s.EngineRuns .cinit ∨ s.EngineRuns .extract)
    ∧ (t.scpos ≠ s.scpos → s.EngineRuns .findsc)
    ∧ (t.nalhdr ≠ s.nalhdr → s.EngineRuns .extract)
    ∧ (t.bitpos ≠ s.bitpos ∨ t.deficit ≠ s.deficit →
        ∃ i, s.EngineRuns i ∧ (isCursorCommand i = true ∨ i = .cinit ∨ i = .extract)) := by
  rcases step_engineRegisters h hr with ⟨i, u, hi, hx, rfl⟩ | same
  · obtain ⟨result, rlen, scpos, nalhdr, -, cursor⟩ := exec_writes hx
    refine ⟨fun hne => ⟨i, hi, result hne⟩, fun hne => ?_, fun hne => ?_, fun hne => ?_,
      fun hne => ⟨i, hi, cursor hne⟩⟩
    · rcases rlen hne with rfl | rfl
      · exact .inl hi
      · exact .inr hi
    · exact scpos hne ▸ hi
    · exact nalhdr hne ▸ hi
  · exact ⟨fun hne => absurd same.result hne, fun hne => absurd same.rlen hne,
      fun hne => absurd same.scpos hne, fun hne => absurd same.nalhdr hne,
      by simp [same.bitpos, same.deficit]⟩

theorem step_writes_hostRegisters :
    (t.arg0 ≠ s.arg0 → ∃ v, s.HostDoes (.write (s.address 0x0C) 32 v))
    ∧ (t.arg1 ≠ s.arg1 → ∃ v, s.HostDoes (.write (s.address 0x10) 32 v))
    ∧ (t.ilen ≠ s.ilen → ∃ v, s.HostDoes (.write (s.address 0x14) 32 v))
    ∧ (t.lcmd ≠ s.lcmd ∨ t.larg0 ≠ s.larg0 ∨ t.larg1 ≠ s.larg1 ∨ t.lilen ≠ s.lilen →
        ∃ w, s.HostDoes (.write (s.address 0x00) 32 w)) := by
  rcases step_hostRegisters h hr with ⟨r, v, hd, rfl⟩ | same
  · obtain ⟨arg0, arg1, ilen, latch⟩ := hostWrite_writes r v s
    refine ⟨fun hne => ⟨v, ?_⟩, fun hne => ⟨v, ?_⟩, fun hne => ⟨v, ?_⟩, fun hne => ⟨v, ?_⟩⟩
    · rwa [arg0 hne] at hd
    · rwa [arg1 hne] at hd
    · rwa [ilen hne] at hd
    · rwa [latch hne] at hd
  · exact ⟨fun hne => absurd same.arg0 hne, fun hne => absurd same.arg1 hne,
      fun hne => absurd same.ilen hne, by simp [same.lcmd, same.larg0, same.larg1, same.lilen]⟩

theorem step_writes_rbuf (hne : t.rbuf ≠ s.rbuf) :
    s.EngineRuns .extract
      ∨ ∃ a v, a < s.params.rbufSize ∧ s.HostDoes (.write (byteAddress s.params .rbuf a) 8 v) := by
  rcases step_events h hr with ⟨i, u, hi, hx, rfl⟩ | ⟨r, v, -, rfl⟩ | ⟨b, a, v, ha, hd, rfl⟩ | same
  · obtain ⟨-, -, -, -, rbuf, -⟩ := exec_writes hx
    exact .inl (rbuf hne ▸ hi)
  · exact absurd (hostWrite_buffers r v s).2 hne
  · cases b with
    | ibuf => exact absurd rfl hne
    | rbuf => exact .inr ⟨a, v, ha, hd⟩
  · exact absurd (by rw [same]) hne

theorem step_writes_ibuf (hne : t.ibuf ≠ s.ibuf) :
    ∃ a v, a < s.params.ibufSize ∧ s.HostDoes (.write (byteAddress s.params .ibuf a) 8 v) := by
  rcases step_events h hr with ⟨i, u, -, hx, rfl⟩ | ⟨r, v, -, rfl⟩ | ⟨b, a, v, ha, hd, rfl⟩ | same
  · exact absurd (by rw [exec_frame hx]; rfl) hne
  · exact absurd (hostWrite_buffers r v s).1 hne
  · cases b with
    | ibuf => exact ⟨a, v, ha, hd⟩
    | rbuf => exact absurd rfl hne
  · exact absurd (by rw [same]) hne

end

/-- Settles O50: the engine's registers change at the completion of a command that writes them, the host's at
a host write that reaches them, the buffers at either. -/
theorem registersAreWrittenOnlyByTheirEvents : Obligations.RegistersAreWrittenOnlyByTheirEvents := by
  intro s t h hr
  obtain ⟨result, rlen, scpos, nalhdr, cursor⟩ := step_writes_engineRegisters h hr
  obtain ⟨arg0, arg1, ilen, latch⟩ := step_writes_hostRegisters h hr
  exact ⟨result, rlen, scpos, nalhdr, arg0, arg1, ilen, step_writes_rbuf h hr, step_writes_ibuf h hr,
    cursor, latch⟩

/-- Settles O51: the cursor moves at a completion alone, and a cursor command does not move it back. -/
theorem cursorNeverMovesBack : Obligations.CursorNeverMovesBack := by
  intro s t ⟨hr, hc⟩ h hreset hcinit hextract
  rcases step_engineRegisters h hreset with ⟨i, u, hi, hx, rfl⟩ | same
  · rcases command_kinds i with hk | rfl | rfl | rfl
    · obtain ⟨w, v, hw, rfl⟩ := exec_cursor_next hk hx
      exact ⟨(hw.bitpos hc hr).1, hw.deficit⟩
    · exact absurd hi hcinit
    · rw [exec_findsc_frame hx]
      exact ⟨Nat.le_refl _, Nat.le_refl _⟩
    · exact absurd hi hextract
  · rw [same.bitpos, same.deficit]
    exact ⟨Nat.le_refl _, Nat.le_refl _⟩

/-! ### Who sets a flag (10_state.md R21) -/

/-- Which command sets which flag. -/
theorem exec_sets {i : Instr} {s t : State} (h : exec i s = .next t) :
    (s.trunc = false → t.trunc = true → isCursorCommand i = true)
    ∧ (s.malf = false → t.malf = true → isCursorCommand i = true ∧ ∀ n, i ≠ .rdbits n)
    ∧ (s.nosc = false → t.nosc = true → i = .findsc ∧ t.result = 0#32) := by
  rcases command_kinds i with hi | rfl | rfl | rfl
  · refine ⟨fun _ _ => hi, fun h0 h1 => ⟨hi, ?_⟩, fun h0 h1 => ?_⟩
    · rintro n rfl
      rw [exec_rdbits_malf h, h0] at h1
      cases h1
    · rw [exec_cursor_frame hi h] at h1
      exact absurd (h0.symm.trans h1) nofun
  · rw [exec_cinit_next h]
    simp
  · obtain ⟨p, len, -, rfl, -⟩ := execFindsc_next h
    simp +contextual [zext32]
  · obtain ⟨bs, -, -, rfl⟩ := execExtract_next h
    simp +contextual

/-- Which register write sets which flag, and when it leaves a command pending. -/
theorem hostWrite_sets (r : Reg) (v : Word) (s : State) :
    (s.ill = false → (hostWrite r v s.afterHead).ill = true → r = .cmd ∧ s.pending = false
      ∧ ∃ e, legal s.params v s.arg0.toNat s.arg1.toNat s.ilen.toNat = .error e)
    ∧ (s.ovr = false → (hostWrite r v s.afterHead).ovr = true → r = .cmd ∧ s.pending = true)
    ∧ (s.pending = false → (hostWrite r v s.afterHead).pending = true →
      r = .cmd ∧ ∃ i, legal s.params v s.arg0.toNat s.arg1.toNat s.ilen.toNat = .ok i)
    ∧ (s.pending = true → (hostWrite r v s.afterHead).pending = true) := by
  cases r
  case cmd =>
    simp only [hostWrite, State.regWrite, tick_ill, tick_ovr, tick_pending]
    have all := issue_cases s.afterHead v
    simp only [afterHead_pending, afterHead_params, afterHead_arg0, afterHead_arg1, afterHead_ilen] at all
    rcases all with ⟨hp, h⟩ | ⟨hp, e, he, h⟩ | ⟨hp, i, hi, h⟩ <;> rw [h]
    · simp +contextual [hp]
    · simp +contextual [hp, he]
    · simp +contextual [hp, hi]
  all_goals simp +contextual [hostWrite, State.regWrite]

theorem step_resets {s : State} (h : s.ResetsNow) :
    step s = .next (resetTurn { s with turns := s.turns.tail }) := by
  obtain ⟨ts, ht⟩ := List.head?_eq_some_iff.1 h
  simp only [step, agentStep, ht, takeTurn, List.tail_cons]

section
variable {s t : State} (h : step s = .next t) (hr : ¬s.ResetsNow)
include h hr

theorem step_sets_engineFlags :
    (s.trunc = false → t.trunc = true → ∃ i, s.EngineRuns i ∧ isCursorCommand i = true)
    ∧ (s.malf = false → t.malf = true →
      ∃ i, s.EngineRuns i ∧ isCursorCommand i = true ∧ ∀ n, i ≠ .rdbits n)
    ∧ (s.nosc = false → t.nosc = true → s.EngineRuns .findsc ∧ t.result = 0#32) := by
  rcases step_engineRegisters h hr with ⟨i, u, hi, hx, rfl⟩ | same
  · obtain ⟨trunc, malf, nosc⟩ := exec_sets hx
    refine ⟨fun h0 h1 => ⟨i, hi, trunc h0 h1⟩, fun h0 h1 => ⟨i, hi, malf h0 h1⟩, fun h0 h1 => ?_⟩
    obtain ⟨rfl, hres⟩ := nosc h0 h1
    exact ⟨hi, hres⟩
  · rw [same.trunc, same.malf, same.nosc]
    simp +contextual

theorem step_sets_hostFlags :
    (s.ill = false → t.ill = true →
      ∃ (w : Word) (r : IllReason), s.HostDoes (.write (s.address 0x00) 32 w) ∧ s.pending = false
        ∧ legal s.params w s.arg0.toNat s.arg1.toNat s.ilen.toNat = .error r)
    ∧ (s.ovr = false → t.ovr = true →
      ∃ w, s.HostDoes (.write (s.address 0x00) 32 w) ∧ s.pending = true)
    ∧ (s.pending = false → t.pending = true →
      ∃ (w : Word) (i : Instr), s.HostDoes (.write (s.address 0x00) 32 w)
        ∧ legal s.params w s.arg0.toNat s.arg1.toNat s.ilen.toNat = .ok i) := by
  rcases step_hostRegisters h hr with ⟨r, v, hd, rfl⟩ | same
  · obtain ⟨ill, ovr, pending, -⟩ := hostWrite_sets r v s
    refine ⟨fun h0 h1 => ?_, fun h0 h1 => ?_, fun h0 h1 => ?_⟩
    · obtain ⟨rfl, hp, e, he⟩ := ill h0 h1
      exact ⟨v, e, hd, hp, he⟩
    · obtain ⟨rfl, hp⟩ := ovr h0 h1
      exact ⟨v, hd, hp⟩
    · obtain ⟨rfl, i, hi⟩ := pending h0 h1
      exact ⟨v, i, hd, hi⟩
  · have idle : s.pending = false → t.pending ≠ true := fun h0 h1 => by
      have := same.pending h1
      simp [h0] at this
    rw [same.ill, same.ovr]
    exact ⟨fun h0 h1 => by simp [h0] at h1, fun h0 h1 => by simp [h0] at h1,
      fun h0 h1 => absurd h1 (idle h0)⟩

theorem step_clears_pending (h0 : s.pending = true) (h1 : t.pending = false) : ∃ i, s.EngineRuns i := by
  by_contra hn
  have kept : t.pending = true := by
    rcases step_events h hr with ⟨i, u, hi, -⟩ | ⟨r, v, -, rfl⟩ | ⟨b, a, v, -, -, rfl⟩ | same
    · exact absurd ⟨i, hi⟩ hn
    · obtain ⟨-, -, -, stays⟩ := hostWrite_sets r v s
      exact stays h0
    · cases b <;> exact h0
    · rw [same]
      exact h0
  rw [kept] at h1
  cases h1

end

/-- Settles O58: a reset sets no flag; in any other step the engine's flags are set at a completion, the
host's and BUSY at a write to CMD, and BUSY is cleared at a completion. -/
theorem flagsAreSetOnlyByTheirEvents : Obligations.FlagsAreSetOnlyByTheirEvents := by
  intro s t h
  by_cases hr : s.ResetsNow
  · rw [step_resets hr] at h
    cases h
    exact ⟨by simp, by simp, by simp, by simp, by simp, by simp, fun _ _ => .inl hr⟩
  · obtain ⟨trunc, malf, nosc⟩ := step_sets_engineFlags h hr
    obtain ⟨ill, ovr, pending⟩ := step_sets_hostFlags h hr
    exact ⟨trunc, malf, nosc, ill, ovr, pending, fun h0 h1 => .inr (step_clears_pending h hr h0 h1)⟩

end Sys2Proof.Machine

namespace Sys2Proof.Machine

open Codes

/-! ### Moving the cursor, and the bits from a position on (40_bitreader.md R73) -/

/-- `s` with the cursor at stream bit `k`. -/
def State.seek (s : State) (k : Nat) : State := { s with bitpos := zext32 k }

@[simp] theorem seek_endBit (s : State) (k : Nat) : (s.seek k).endBit = s.endBit := rfl

theorem seek_cursor_self (s : State) : s.seek s.cursor = s := by
  simp only [State.seek, zext32, State.cursor, BitVec.ofNat_toNat, BitVec.setWidth_eq]

theorem seek_advance (s : State) (k : Nat) : (s.seek k).advance = s.seek (k + 1) := by
  simp only [State.advance, State.seek, zext32, BitVec.ofNat_add]
  rfl

theorem hasBits_cons {s : State} {k : Nat} {b : Bool} {bs : List Bool} :
    s.HasBits k (b :: bs) ↔ k < s.endBit ∧ s.streamBit k = .ok b ∧ s.HasBits (k + 1) bs := by
  constructor
  · rintro ⟨hle, hb⟩
    rw [List.length_cons] at hle
    exact ⟨by omega, hb 0 (by simp), by omega, fun j hj => by
      have := hb (j + 1) (by simpa using hj)
      rwa [List.getElem_cons_succ, ← Nat.add_assoc, Nat.add_right_comm] at this⟩
  · rintro ⟨-, h0, hle, hb⟩
    refine ⟨by rw [List.length_cons]; omega, fun j hj => ?_⟩
    cases j with
    | zero => exact h0
    | succ j =>
      rw [List.getElem_cons_succ, ← Nat.add_assoc, Nat.add_right_comm]
      exact hb j (by simpa using hj)

theorem hasBits_append {s : State} {k : Nat} {as bs : List Bool} :
    s.HasBits k (as ++ bs) → s.HasBits k as ∧ s.HasBits (k + as.length) bs := by
  induction as generalizing k with
  | nil => exact fun h => ⟨⟨by have := h.1; simp at this ⊢; omega, nofun⟩, h⟩
  | cons a as ih =>
    intro h
    obtain ⟨hlt, ha, hrest⟩ := hasBits_cons.1 h
    obtain ⟨has, hbs⟩ := ih hrest
    refine ⟨hasBits_cons.2 ⟨hlt, ha, has⟩, ?_⟩
    rwa [List.length_cons, Nat.add_comm as.length 1, ← Nat.add_assoc]

/-! ### The codes as numbers, and one entry of a scaling list -/

theorem numeral_eq_cons {m : Nat} (hm : m ≠ 0) :
    numeral m = true :: (List.range m.log2).map (fun i => m.testBit (m.log2 - 1 - i)) := by
  rw [numeral, List.range_succ_eq_map, List.map_cons, List.map_map, Nat.sub_zero, Nat.testBit_log2 hm]
  congr 1
  refine List.map_congr_left fun i _ => ?_
  simp only [Function.comp_apply]
  congr 1
  omega

theorem ueCode_length (v : Nat) : (ueCode v).length = (v + 1).log2 + 1 + (v + 1).log2 := by
  simp only [ueCode, numeral, List.length_append, List.length_replicate, List.length_map,
    List.length_range]
  omega

theorem signedOf_codeNumber (x : Int) : signedOf (codeNumber x) = x := by
  unfold signedOf codeNumber
  split <;> split <;> omega

theorem codeNumber_le {x : Int} (h : -(2 ^ 31 - 1) ≤ x ∧ x ≤ 2 ^ 31 - 1) : codeNumber x ≤ 2 ^ 32 - 2 := by
  unfold codeNumber
  split <;> omega

theorem skipEntries_delta {size count : Nat} {last next d : Int} {s t : State} (hn : next ≠ 0)
    (hd : decodeSE s = .ok (d, t)) :
    skipEntries (size + 1) last next count s
      = skipEntries size (lastAfter last ((last + d) % 256)) ((last + d) % 256) (count + 1) t := by
  rw [skipEntries, if_pos hn, hd]

theorem skipEntries_deltaFault {size count : Nat} {last next : Int} {s : State} {f : Fault} (hn : next ≠ 0)
    (hf : decodeSE s = .error f) : skipEntries (size + 1) last next count s = .error f := by
  rw [skipEntries, if_pos hn, hf]

/-! ### The cursor at a known bit -/

section
variable {s : State} (hr : s.rlen.toNat ≤ 2 ^ 24)
include hr

theorem seek_cursor {k : Nat} (h : k ≤ s.endBit) : (s.seek k).cursor = k := by
  simp only [State.endBit] at h
  exact zext32_toNat (by omega)

theorem getBit_seek {k : Nat} {b : Bool} (h : k < s.endBit) (hb : s.streamBit k = .ok b) :
    getBit (s.seek k) = .ok (b, s.seek (k + 1)) := by
  have hc := seek_cursor hr h.le
  rw [← seek_advance]
  exact getBit_inside (by rwa [hc]) (by rwa [hc])

theorem getBit_unwritten {k : Nat} (h : k < s.endBit) (hn : s.rbuf.read (k / 8) = none) :
    getBit (s.seek k) = .error (.uninit .rbuf (k / 8)) := by
  rw [getBit_error, seek_cursor hr h.le]
  exact ⟨h, hn, rfl⟩

/-- A fixed-width read that comes to an unwritten byte after `k` written bits. -/
theorem readBitsFrom_unwritten {k n v p : Nat} (hk : k < n) (hp : p + k < s.endBit)
    (hw : ∀ j < k, (s.rbuf.read ((p + j) / 8)).isSome = true) (hn : s.rbuf.read ((p + k) / 8) = none) :
    readBitsFrom n v (s.seek p) = .error (.uninit .rbuf ((p + k) / 8)) := by
  induction k generalizing n v p with
  | zero =>
    obtain ⟨n, rfl⟩ := Nat.exists_eq_add_one_of_ne_zero (Nat.ne_of_gt hk)
    simp only [readBitsFrom, Nat.add_zero] at hp hn ⊢
    rw [getBit_unwritten hr hp hn]
  | succ k ih =>
    obtain ⟨n, rfl⟩ := Nat.exists_eq_add_one_of_ne_zero (Nat.ne_of_gt (Nat.zero_lt_of_lt hk))
    obtain ⟨w, hw0⟩ := Option.isSome_iff_exists.1 (hw 0 (by omega))
    rw [Nat.add_zero] at hw0
    have next : ∀ j, p + 1 + j = p + (j + 1) := fun j => by omega
    simp only [readBitsFrom]
    rw [getBit_seek hr (by omega) (streamBit_ok.2 ⟨w, hw0, rfl⟩)]
    dsimp only
    rw [ih (by omega) (by omega) (fun j hj => by rw [next]; exact hw (j + 1) (by omega))
      (by rwa [next]), next]

/-- A fixed-width read of the low `n` bits of `m`, most significant first. -/
theorem readBitsFrom_lowBits {m n v p : Nat}
    (h : s.HasBits p ((List.range n).map (fun i => m.testBit (n - 1 - i)))) :
    readBitsFrom n v (s.seek p) = .ok (v * 2 ^ n + m % 2 ^ n, s.seek (p + n)) := by
  induction n generalizing v p with
  | zero => simp [readBitsFrom, Nat.mod_one]
  | succ n ih =>
    rw [List.range_succ_eq_map, List.map_cons, List.map_map] at h
    obtain ⟨hlt, hb, hrest⟩ := hasBits_cons.1 h
    have tail : s.HasBits (p + 1) ((List.range n).map (fun i => m.testBit (n - 1 - i))) := by
      convert hrest using 3
      simp only [Function.comp_apply]
      congr 1
      omega
    have value : (2 * v + (m.testBit n).toNat) * 2 ^ n + m % 2 ^ n = v * 2 ^ (n + 1) + m % 2 ^ (n + 1) := by
      rw [Nat.toNat_testBit, Nat.mod_pow_succ]
      ring
    simp only [readBitsFrom]
    rw [getBit_seek hr hlt hb]
    dsimp only
    rw [ih tail, ← value]
    simp only [Nat.add_sub_cancel, Nat.sub_zero, Nat.add_assoc, Nat.add_comm 1 n]

/-! ### Exp-Golomb codes and scaling lists on known bits -/

theorem uePrefix_zeros {lz fuel z p : Nat} (h : s.HasBits p (List.replicate lz false)) :
    uePrefix (fuel + lz) z (s.seek p) = uePrefix fuel (z + lz) (s.seek (p + lz)) := by
  induction lz generalizing z p with
  | zero => rfl
  | succ lz ih =>
    obtain ⟨hlt, hb, hrest⟩ := hasBits_cons.1 h
    rw [← Nat.add_assoc]
    simp only [uePrefix, seek_endBit, seek_cursor hr hlt.le, Nat.not_le.2 hlt, if_false,
      getBit_seek hr hlt hb]
    rw [ih hrest]
    simp only [Nat.add_assoc, Nat.add_comm 1 lz]

theorem uePrefix_one {fuel z p : Nat} (hlt : p < s.endBit) (hb : s.streamBit p = .ok true) :
    uePrefix (fuel + 1) z (s.seek p) = .ok (some z, s.seek (p + 1)) := by
  simp only [uePrefix, seek_endBit, seek_cursor hr hlt.le, Nat.not_le.2 hlt, if_false,
    getBit_seek hr hlt hb]

theorem uePrefix_unwritten {fuel z p : Nat} (hlt : p < s.endBit) (hn : s.rbuf.read (p / 8) = none) :
    uePrefix (fuel + 1) z (s.seek p) = .error (.uninit .rbuf (p / 8)) := by
  simp only [uePrefix, seek_endBit, seek_cursor hr hlt.le, Nat.not_le.2 hlt, if_false,
    getBit_unwritten hr hlt hn]

/-- `uePrefix` looks at up to 32 bits: `lz ≤ 31` zeros leave it one or more. -/
theorem uePrefix_afterZeros {lz p : Nat} (hlz : lz ≤ 31) (h : s.HasBits p (List.replicate lz false)) :
    uePrefix (Config.ueMaxLz + 1) 0 (s.seek p) = uePrefix (31 - lz + 1) lz (s.seek (p + lz)) := by
  rw [show Config.ueMaxLz + 1 = 31 - lz + 1 + lz by simp only [Config.ueMaxLz]; omega,
    uePrefix_zeros hr h, Nat.zero_add]

/-- A code that comes to an unwritten byte after `lz` leading zeros. -/
theorem decodeUE_prefixUnwritten {lz p : Nat} (hlz : lz ≤ 31)
    (h : s.HasBits p (List.replicate lz false)) (hp : p + lz < s.endBit)
    (hn : s.rbuf.read ((p + lz) / 8) = none) :
    decodeUE (s.seek p) = .error (.uninit .rbuf ((p + lz) / 8)) := by
  unfold decodeUE
  rw [uePrefix_afterZeros hr hlz h, uePrefix_unwritten hr hp hn]

/-- After `lz` leading zeros and the 1 bit, a code is decided by the suffix of `lz` bits. -/
theorem decodeUE_prefix {lz p : Nat} (hlz : lz ≤ 31)
    (h : s.HasBits p (List.replicate lz false ++ [true])) :
    decodeUE (s.seek p)
      = (readBits lz (s.seek (p + lz + 1))).map (fun r => (2 ^ lz - 1 + r.1, r.2)) := by
  obtain ⟨hz, h1⟩ := hasBits_append h
  obtain ⟨hlt, hb, -⟩ := hasBits_cons.1 h1
  rw [List.length_replicate] at hlt hb
  unfold decodeUE
  rw [uePrefix_afterZeros hr hlz hz, uePrefix_one hr hlt hb]
  dsimp only
  cases readBits lz (s.seek (p + lz + 1)) <;> rfl

/-- A code whose suffix comes to an unwritten byte after `k` bits. -/
theorem decodeUE_suffixUnwritten {lz k p : Nat} (hlz : lz ≤ 31)
    (h : s.HasBits p (List.replicate lz false ++ [true])) (hk : k < lz)
    (hp : p + lz + 1 + k < s.endBit)
    (hw : ∀ j < k, (s.rbuf.read ((p + lz + 1 + j) / 8)).isSome = true)
    (hn : s.rbuf.read ((p + lz + 1 + k) / 8) = none) :
    decodeUE (s.seek p) = .error (.uninit .rbuf ((p + lz + 1 + k) / 8)) := by
  rw [decodeUE_prefix hr hlz h, readBits, readBitsFrom_unwritten hr hk hp hw hn]
  rfl

/-- The decoder inverts `ueCode` (30_encoding.md R64). -/
theorem decodeUE_ueCode {v p : Nat} (hv : v ≤ 2 ^ 32 - 2) (h : s.HasBits p (ueCode v)) :
    decodeUE (s.seek p) = .ok (v, s.seek (p + (ueCode v).length)) := by
  have hm : v + 1 ≠ 0 := by omega
  have hlz : (v + 1).log2 ≤ 31 := Nat.le_of_lt_succ ((Nat.log2_lt hm).2 (by omega))
  have length := ueCode_length v
  have low := Nat.log2_self_le hm
  have high := @Nat.lt_log2_self (v + 1)
  rw [ueCode, numeral_eq_cons hm, List.append_cons] at h
  generalize (v + 1).log2 = lz at *
  obtain ⟨hprefix, hsuffix⟩ := hasBits_append h
  rw [List.length_append, List.length_replicate, List.length_singleton, ← Nat.add_assoc] at hsuffix
  have value : 2 ^ lz - 1 + (v + 1) % 2 ^ lz = v := by
    have : (v + 1) % 2 ^ lz = v + 1 - 2 ^ lz := by
      rw [Nat.mod_eq_sub_mod low, Nat.mod_eq_of_lt (by rw [Nat.pow_succ] at high; omega)]
    have := Nat.one_le_two_pow (n := lz)
    omega
  rw [decodeUE_prefix hr hlz hprefix, readBits, readBitsFrom_lowBits hr hsuffix, length]
  simp only [Except.map, Nat.zero_mul, Nat.zero_add, value, Nat.add_assoc]

/-- The decoder inverts `seCode` (30_encoding.md R65). -/
theorem decodeSE_seCode {x : Int} {p : Nat} (hx : -(2 ^ 31 - 1) ≤ x ∧ x ≤ 2 ^ 31 - 1)
    (h : s.HasBits p (seCode x)) :
    decodeSE (s.seek p) = .ok (x, s.seek (p + (seCode x).length)) := by
  unfold decodeSE
  rw [decodeUE_ueCode hr (codeNumber_le hx) h]
  dsimp only
  rw [signedOf_codeNumber]
  rfl

/-- A scaling list faults where the delta after those in `ds` does (41_expgolomb.md R82). `w` is the running
scale before its reduction modulo 256. -/
theorem skipEntries_fault {ds : List Int} {size count p : Nat} {w : Int} {f : Fault}
    (hlen : ds.length < size) (hw : ∀ k ≤ ds.length, (w + (ds.take k).sum) % 256 ≠ 0)
    (hx : ∀ d ∈ ds, -(2 ^ 31 - 1) ≤ d ∧ d ≤ 2 ^ 31 - 1) (h : s.HasBits p (ds.flatMap seCode))
    (hf : decodeSE (s.seek (p + (ds.flatMap seCode).length)) = .error f) :
    skipEntries size (w % 256) (w % 256) count (s.seek p) = .error f := by
  induction ds generalizing size count p w with
  | nil =>
    obtain ⟨size, rfl⟩ := Nat.exists_eq_add_one_of_ne_zero (Nat.ne_of_gt hlen)
    exact skipEntries_deltaFault (by simpa using hw 0 (Nat.zero_le _)) hf
  | cons d ds ih =>
    obtain ⟨size, rfl⟩ := Nat.exists_eq_add_one_of_ne_zero (Nat.ne_of_gt (Nat.zero_lt_of_lt hlen))
    rw [List.flatMap_cons] at h hf
    obtain ⟨hd, hds⟩ := hasBits_append h
    have hnext : (w + d) % 256 ≠ 0 := by simpa using hw 1 (by simp)
    have hw' : ∀ k ≤ ds.length, (w + d + (ds.take k).sum) % 256 ≠ 0 := fun k hk => by
      have := hw (k + 1) (by simpa using hk)
      rwa [List.take_succ_cons, List.sum_cons, ← add_assoc] at this
    rw [skipEntries_delta (by simpa using hw 0 (Nat.zero_le _)) (decodeSE_seCode hr (hx d (by simp)) hd),
      Int.emod_add_emod, lastAfter, if_pos hnext]
    refine ih (by simpa using hlen) hw' (fun x hx' => hx x (List.mem_cons_of_mem _ hx')) hds ?_
    rwa [List.length_append, ← Nat.add_assoc] at hf

end

end Sys2Proof.Machine

namespace Sys2Proof.Machine

open Codes

/-! ### Unwritten bytes (10_state.md R32, 60_exceptions.md R100) -/

theorem writeResult_fault {α : Type} {g : α → Word} {x : Except Fault (α × State)} {f : Fault} :
    writeResult g x = .fault f ↔ x = .error f := by
  unfold writeResult
  split <;> simp

theorem decodeSE_error {s : State} {f : Fault} (h : decodeUE s = .error f) : decodeSE s = .error f := by
  rw [decodeSE, h]

theorem exec_rdue_rdse_fault {s : State} {f : Fault} (h : decodeUE s = .error f) :
    ∀ i ∈ [Instr.rdue, .rdse], exec i s = .fault f := by
  simp only [List.mem_cons, List.not_mem_nil, or_false, forall_eq_or_imp, forall_eq]
  exact ⟨writeResult_fault.2 h, writeResult_fault.2 (decodeSE_error h)⟩

theorem decodeUE_firstBitFaults {s : State} {f : Fault} (h : getBit s = .error f) :
    decodeUE s = .error f := by
  obtain ⟨hc, -⟩ := getBit_error.1 h
  rw [decodeUE, uePrefix, if_neg (Nat.not_le.2 hc), h]

theorem exec_cursor_firstBitFaults {i : Instr} {s : State} {f : Fault} (hi : isCursorCommand i = true)
    (wf : i.WellFormed) (h : getBit s = .error f) : exec i s = .fault f := by
  cases i with
  | rdbits n =>
    obtain ⟨n, rfl⟩ := Nat.exists_eq_add_of_le' ((wellFormed_rdbits n).1 wf).1
    refine writeResult_fault.2 ?_
    rw [readBits, readBitsFrom, h]
  | rdue => exact exec_rdue_rdse_fault (decodeUE_firstBitFaults h) _ (by simp)
  | rdse => exact exec_rdue_rdse_fault (decodeUE_firstBitFaults h) _ (by simp)
  | skipsl size =>
    obtain ⟨n, hn⟩ : ∃ n, size.entries = n + 1 := by cases size <;> exact ⟨_, rfl⟩
    refine writeResult_fault.2 ?_
    rw [skipScalingList, hn]
    exact skipEntries_deltaFault (by decide) (decodeSE_error (decodeUE_firstBitFaults h))
  | cinit => cases hi
  | findsc => cases hi
  | extract => cases hi

/-- The first unwritten index from `lo` on is one index. -/
theorem firstUnwritten_unique {m : Memory} {lo a k : Nat} (ha : lo ≤ a) (hk : lo ≤ k)
    (hna : m.read a = none) (hnk : m.read k = none) (hwa : m.WrittenIn lo a) (hwk : m.WrittenIn lo k) :
    a = k := by
  rcases Nat.lt_trichotomy a k with h | h | h
  · have := hwk a h ha
    simp [hna] at this
  · exact h
  · have := hwa k h hk
    simp [hnk] at this

/-- The search from `lo` faults at the first unwritten byte, if no start code ends before it. -/
theorem findStartCode_unwritten {m : Memory} {lo il k : Nat} (hlo : lo ≤ k) (hk : k < il)
    (hw : m.WrittenIn lo k) (hn : m.read k = none)
    (hno : ∀ q ≥ lo, ∀ len : Nat, ¬IsStartCode m k q len) :
    findStartCode m lo il = .error (.uninit .ibuf k) := by
  cases hf : findStartCode m lo il with
  | error f =>
    obtain ⟨a, hla, -, hna, rfl, hwa⟩ := scanFrom_error hf
    rw [firstUnwritten_unique hla hlo hna hn (fun b hb hlb => hwa b hlb hb) hw]
  | ok r =>
    obtain ⟨q, len⟩ := r
    have beyond : len ≠ 0 → k < q + len := fun hlen => by
      rcases scanFrom_ok hf with ⟨hq, h3, -, hz, h1⟩ | ⟨-, h0⟩
      · exact Nat.lt_of_not_le fun hle => hno q hq len ⟨h3, hle, hz, h1⟩
      · exact absurd h0 hlen
    have := scanFrom_written hf (by omega) k hlo hk beyond
    simp [hn] at this

theorem exec_findsc_fault {s : State} {f : Fault}
    (h : findStartCode s.ibuf s.larg0.toNat s.lilen.toNat = .error f) : exec .findsc s = .fault f := by
  rw [exec, execFindsc, State.arg0Value, State.ilenValue, h]

/-- EXTRACT's loop faults at the first unwritten byte of its input. -/
theorem deescape_unwritten {ib rb : Memory} {n i z o k : Nat} (hk : k < n) (hw : ib.WrittenIn i (i + k))
    (hn : ib.read (i + k) = none) : deescape ib n i z o rb = .error (.uninit .ibuf (i + k)) := by
  cases hd : deescape ib n i z o rb with
  | error f =>
    obtain ⟨j, -, hnj, rfl, hwj⟩ := deescape_error hd
    have written : ib.WrittenIn i (i + j) := fun a ha hia => by
      have := hwj (a - i) (by omega)
      rwa [Nat.add_sub_of_le hia] at this
    rw [firstUnwritten_unique (Nat.le_add_right i j) (Nat.le_add_right i k) hnj hn written hw]
  | ok r =>
    obtain ⟨bs, rfl, hbs, -⟩ := deescape_ok hd
    rw [hbs k hk] at hn
    cases hn

/-- Settles O46: the first bit of a cursor command, the first byte of FINDSC, and the first unwritten byte of
EXTRACT's unit fault. -/
theorem unwrittenByteIsUninit : Obligations.UnwrittenByteIsUninit := by
  intro s
  refine ⟨fun i hi wf hc hn => ?_, fun hlt hn => exec_findsc_fault ?_, fun k hk hw hn => ?_⟩
  · exact exec_cursor_firstBitFaults hi wf (getBit_error.2 ⟨hc, hn, rfl⟩)
  · refine findStartCode_unwritten (Nat.le_refl _) hlt (fun a ha hle => by omega) hn ?_
    rintro q hq len ⟨h3, hle, -⟩
    omega
  · rw [exec, execExtract, State.arg0Value, State.arg1Value, deescape_unwritten hk hw hn]

/-- Settles O57: each command is followed over the written bytes, at the position of the cursor or of the
scan, up to the unwritten one. -/
theorem reachedUnwrittenByteIsUninit : Obligations.ReachedUnwrittenByteIsUninit := by
  intro s ⟨hr, _⟩
  have here := seek_cursor_self s
  refine ⟨fun n k _ hk hp hw hn => writeResult_fault.2 ?_, fun lz hlz hz hp hn => ?_,
    fun lz hlz hb k hk hp hw hn => ?_, fun size ds f hlen hscale hx hb hf => writeResult_fault.2 ?_,
    fun k hlo hk hw hn hno => exec_findsc_fault (findStartCode_unwritten hlo hk hw hn hno)⟩
  · have := readBitsFrom_unwritten hr (v := 0) hk hp hw hn
    rwa [here] at this
  · have := decodeUE_prefixUnwritten hr hlz hz hp hn
    rw [here] at this
    exact exec_rdue_rdse_fault this
  · have := decodeUE_suffixUnwritten hr hlz hb hk hp hw hn
    rw [here] at this
    exact exec_rdue_rdse_fault this
  · have := skipEntries_fault hr (count := 0) hlen hscale hx hb (writeResult_fault.1 hf)
    rwa [here] at this

end Sys2Proof.Machine

namespace Sys2Proof.Machine

/-! ### The faults of the commands and of a step (20_memory.md R44, R49, 60_exceptions.md R100) -/

theorem exec_findsc_error {s : State} {f : Fault} (h : exec .findsc s = .fault f) :
    ∃ a, s.larg0.toNat ≤ a ∧ a < s.lilen.toNat ∧ s.ibuf.read a = none ∧ f = .uninit .ibuf a := by
  simp only [exec, execFindsc] at h
  split at h
  · cases h
  · rename_i hf
    cases h
    obtain ⟨a, hlo, hhi, hn, hf, -⟩ := scanFrom_error hf
    exact ⟨a, hlo, hhi, hn, hf⟩

/-- EXTRACT stops at a byte of its input alone: its output's first byte, which NALHDR reads, it has written. -/
theorem exec_extract_error {s : State} {f : Fault} (h : exec .extract s = .fault f) :
    ∃ k < s.larg1.toNat, s.ibuf.read (s.larg0.toNat + k) = none
      ∧ f = .uninit .ibuf (s.larg0.toNat + k) := by
  simp only [exec, execExtract] at h
  split at h
  · rename_i o rb hd
    obtain ⟨bs, -, -, he⟩ := deescape_ok hd
    cases he
    rw [Nat.zero_add, nalHeader_writeAll] at h
    cases h
  · rename_i hd
    cases h
    obtain ⟨k, hk, hn, hf, -⟩ := deescape_error hd
    exact ⟨k, hk, hn, hf⟩

/-- Settles O47, by the kinds of command: what stops each is an engine read of a byte nothing has written. -/
theorem commandsFaultOnlyOnUnwrittenBytes : Obligations.CommandsFaultOnlyOnUnwrittenBytes := by
  intro s i
  refine ⟨exec_not_refused i s, fun f h => ?_⟩
  rcases command_kinds i with hi | rfl | rfl | rfl
  · obtain ⟨a, ha, hf, hn⟩ := exec_cursor_fault hi h
    exact ⟨.rbuf, a, hf, hn, .inl ⟨hi, rfl, ha⟩⟩
  · cases h
  · obtain ⟨a, hlo, hhi, hn, hf⟩ := exec_findsc_error h
    exact ⟨.ibuf, a, hf, hn, .inr (.inl ⟨rfl, rfl, hlo, hhi⟩)⟩
  · obtain ⟨k, hk, hn, hf⟩ := exec_extract_error h
    exact ⟨.ibuf, _, hf, hn, .inr (.inr ⟨rfl, rfl, Nat.le_add_right _ k, Nat.add_lt_add_left hk _⟩)⟩

/-- A host access that is not performed is one of the two model faults of the bus. -/
theorem hostAccess_fault {a : BusAccess} {s : State} {f : Fault} (h : hostAccess a s = .fault f) :
    f = .hazard ∨ f = .hosterr := by
  cases a with
  | read addr bits =>
    simp only [hostAccess] at h
    split at h
    · cases h
    · cases h
    · cases h
      exact .inr rfl
  | write addr bits v =>
    simp only [hostAccess] at h
    split at h
    · cases h
    · unfold hostWriteByte at h
      split at h
      · cases h
        exact .inl rfl
      · cases h
    · cases h
      exact .inr rfl

theorem hostTurn_not_illegalLatch (s : State) : hostTurn s ≠ .fault .illegalLatch := by
  unfold hostTurn
  split
  · nofun
  · nofun
  · intro h
    rcases hostAccess_fault h with hf | hf <;> cases hf

theorem engineTurn_not_illegalLatch {s : State} (hs : s.LatchOk) :
    engineTurn s ≠ .fault .illegalLatch := by
  unfold engineTurn
  split
  · rename_i hp
    split
    · rename_i i _
      cases hx : exec i s with
      | next t => nofun
      | fault f =>
        obtain ⟨b, a, rfl, -⟩ := (commandsFaultOnlyOnUnwrittenBytes s i).2 f hx
        nofun
      | refused r => nofun
    · rename_i hl
      have := hs hp
      rw [hl] at this
      cases this
  · nofun

theorem takeTurn_not_illegalLatch {s : State} (hs : s.LatchOk) (t : Turn) :
    takeTurn t s ≠ .fault .illegalLatch := by
  cases t with
  | host => exact hostTurn_not_illegalLatch s
  | engine => exact engineTurn_not_illegalLatch hs
  | reset => nofun

/-- The stuck state of log 5 is out of reach of a legal latch. -/
theorem step_not_illegalLatch {s : State} (hs : s.LatchOk) : step s ≠ .fault .illegalLatch := by
  unfold step agentStep
  split
  · exact takeTurn_not_illegalLatch hs _
  · rename_i t rest _
    exact takeTurn_not_illegalLatch (s := { s with turns := rest }) hs t

/-! ### The latch stays legal (20_memory.md R48) -/

/-- LILEN holds an ILEN of the invariant whole (10_state.md R31). -/
theorem latch_lilen_toNat {s : State} (hs : s.Inv) : (s.ilen.setWidth 25).toNat = s.ilen.toNat := by
  have := hs.ilen
  have := hs.params.1.2
  rw [BitVec.toNat_setWidth, Nat.mod_eq_of_lt (by omega)]

/-- An accepted issue latches what `Legal` was asked about. -/
theorem latch_latched {s : State} (hs : s.Inv) (w : Word) :
    (s.latch w).latched = legal s.params w s.arg0.toNat s.arg1.toNat s.ilen.toNat := by
  rw [← latch_lilen_toNat hs]
  rfl

theorem issue_keeps_latchOk {s : State} (hs : s.Inv) (hl : s.LatchOk) (w : Word) :
    (s.issue w).LatchOk := by
  rcases issue_cases s w with ⟨-, h⟩ | ⟨-, r, -, h⟩ | ⟨-, i, hi, h⟩ <;> rw [h]
  · exact hl
  · exact hl
  · intro _
    rw [latch_latched hs, hi]
    rfl

theorem regWrite_keeps_latchOk {s : State} (hs : s.Inv) (hl : s.LatchOk) (r : Reg) (v : Word) :
    (s.regWrite r v).LatchOk := by
  cases r
  case cmd => exact issue_keeps_latchOk hs hl v
  all_goals exact hl

/-- Settles O11: a write to CMD is the one step that can latch a word, and it latches none that fails `Legal`;
a reset and a completion leave no command pending, and every other step leaves the latch as it is. -/
theorem latchedCommandStaysLegal : Obligations.LatchedCommandStaysLegal := by
  intro s hs hl
  refine ⟨fun t h => ?_, step_not_illegalLatch hl⟩
  by_cases hr : s.ResetsNow
  · rw [step_resets hr] at h
    cases h
    nofun
  · rcases step_events h hr with ⟨i, u, -, -, rfl⟩ | ⟨r, v, -, rfl⟩ | ⟨b, a, v, -, -, rfl⟩ | same
    · nofun
    · exact regWrite_keeps_latchOk (s := s.afterHead) hs.of_eq hl r v
    · cases b <;> exact hl
    · rw [same]
      exact hl

/-! ### The engine's step (20_memory.md R49) -/

theorem step_engineCompletes {s t : State} {i : Instr} (h : s.EngineRuns i)
    (hx : exec i { s with turns := s.turns.tail } = .next t) : step s = .next t.complete := by
  rw [step_engineRuns h, hx]
  rfl

/-- Settles O13: an enabled engine's step is the command and its completion; another passes. -/
theorem engineStepRunsTheLatchedCommand : Obligations.EngineStepRunsTheLatchedCommand := by
  refine ⟨fun s t i hi hx => step_engineCompletes hi hx, fun s rest ht hp => ?_⟩
  simp [step, agentStep, ht, takeTurn, engineTurn, hp]

/-- Settles O14: the placed word is the latch of a state in which the engine runs it. -/
theorem placedWordRunsNext : Obligations.PlacedWordRunsNext := by
  intro s t w i hl hx
  have placed : s.withFetchWord 32 w.toNat = s.place w := by
    rw [State.withFetchWord, Nat.mod_eq_of_lt w.isLt, BitVec.ofNat_toNat, BitVec.setWidth_eq]
  rw [placed]
  exact step_engineCompletes ⟨.inl rfl, rfl, hl⟩ hx

/-! ### The issue attempt (20_memory.md R48) -/

/-- Settles O17: the write reaches CMD, and its effect is one of the three of an issue attempt. -/
theorem cmdWriteIsAnIssueAttempt : Obligations.CmdWriteIsAnIssueAttempt := by
  intro s w h
  rw [step_registerWrite (r := .cmd) rfl h, hostWrite, State.regWrite]
  have outcomes := issue_cases s.afterHead w
  simp only [afterHead_pending, afterHead_params, afterHead_arg0, afterHead_arg1, afterHead_ilen] at outcomes
  rcases outcomes with ⟨hp, hi⟩ | ⟨hp, r, hr, hi⟩ | ⟨hp, i, hl, hi⟩ <;> rw [hi]
  · rw [if_pos hp]
    rfl
  · rw [if_neg (by simp [hp]), hr]
    rfl
  · rw [if_neg (by simp [hp]), hl]
    rfl

/-! ### The host while a command is pending (20_memory.md R53, R55) -/

theorem regWrite_pending_frame {s : State} (hp : s.pending = true) (r : Reg) (v : Word) :
    s.regWrite r v = { s with
      arg0 := (s.regWrite r v).arg0, arg1 := (s.regWrite r v).arg1, ilen := (s.regWrite r v).ilen,
      ill := (s.regWrite r v).ill, ovr := (s.regWrite r v).ovr } := by
  cases r
  case cmd =>
    rw [State.regWrite, State.issue, if_pos hp]
    rfl
  all_goals rfl

/-- What a host access can change while a command is pending. -/
theorem hostAccess_pending_frame {a : BusAccess} {s t : State} (hp : s.pending = true)
    (h : hostAccess a s = .next t) :
    t = { s with arg0 := t.arg0, arg1 := t.arg1, ilen := t.ilen, ill := t.ill, ovr := t.ovr,
                 replies := t.replies, draws := t.draws } := by
  obtain ⟨_, _, r, -, rfl⟩ | ⟨_, r, v, -, -, rfl⟩ | ⟨_, _, _, _, -, -, idle, -⟩ := hostAccess_next h
  · rfl
  · rw [regWrite_pending_frame hp]
    rfl
  · rw [hp] at idle
    cases idle

theorem hostMoves_not_engineRuns {s : State} (h : s.HostMoves) (i : Instr) : ¬s.EngineRuns i := by
  rintro ⟨ht, hp, -⟩
  rcases h with hh | ⟨-, idle⟩
  · rcases ht with he | he <;> simp [he] at hh
  · rw [hp] at idle
    cases idle

theorem hostMoves_not_resetsNow {s : State} (h : s.HostMoves) : ¬s.ResetsNow := by
  intro hr
  rcases h with hh | ⟨ht, -⟩
  · rw [hr] at hh
    cases hh
  · rw [State.ResetsNow, ht] at hr
    cases hr

/-- Settles O52, by the cases of the host's step: it passes, polls STATUS, or performs a bus access. -/
theorem pendingCommandIsUndisturbed : Obligations.PendingCommandIsUndisturbed := by
  intro s t hp hm h
  rcases step_cases h with ⟨hr, -⟩ | ⟨i, u, hi, -⟩ | ⟨-, rfl⟩ | ⟨-, rest, -, rfl⟩ | ⟨a, -, ha⟩
  · exact absurd hr (hostMoves_not_resetsNow hm)
  · exact absurd hi (hostMoves_not_engineRuns hm i)
  · rfl
  · unfold hostWait
    split <;> rfl
  · rw [hostAccess_pending_frame (s := s.afterHead) hp ha]
    rfl

end Sys2Proof.Machine

namespace Sys2Proof.Machine

/-! ### The host's window (20_memory.md R36 to R38, R42) -/

theorem regAt_reserved {off : Nat} (h1 : 0x2C ≤ off) (h2 : off < 0x100) (h3 : off % 4 = 0) :
    regAt off = some .reserved := by
  unfold regAt
  split
  case h_12 => exact if_pos ⟨h1, h2, h3⟩
  all_goals omega

/-- Every aligned offset of the register window has its register. -/
theorem regAt_isSome {off : Nat} (h1 : off < 0x100) (h2 : off % 4 = 0) : (regAt off).isSome = true := by
  by_cases hr : 0x2C ≤ off
  · rw [regAt_reserved hr h1 h2]
    rfl
  · obtain ⟨k, rfl⟩ := Nat.dvd_of_mod_eq_zero h2
    have hk : k < 11 := by omega
    interval_cases k <;> rfl

/-- Settles O20: an aligned offset past NALHDR is reserved, reads 0 and stores nothing. -/
theorem reservedOffsetsReadZero : Obligations.ReservedOffsetsReadZero := by
  intro s off h1 h2 h3
  have hr := regAt_reserved h1 h2 h3
  exact ⟨fun h => step_registerRead hr h, fun v h => step_registerWrite hr h⟩

/-- R37's rows: the accesses, by address and width, that the host's window admits. -/
abbrev BusAdmits (p : Params) (addr bits : Nat) : Prop :=
  p.blockBase ≤ addr ∧
    ((bits = 32 ∧ addr - p.blockBase < 0x100 ∧ (addr - p.blockBase) % 4 = 0)
      ∨ (bits = 8 ∧ 0x01000000 ≤ addr - p.blockBase ∧ addr - p.blockBase < 0x01000000 + p.ibufSize)
      ∨ (bits = 8 ∧ 0x02000000 ≤ addr - p.blockBase ∧ addr - p.blockBase < 0x02000000 + p.rbufSize))

theorem busAdmits_of_busTarget {p : Params} {addr bits : Nat} {x : Target}
    (h : busTarget p addr bits = some x) : BusAdmits p addr bits := by
  obtain ⟨hb, ht⟩ := busTarget_some h
  refine ⟨hb, ?_⟩
  cases x with
  | reg r =>
    obtain ⟨h32, hr⟩ := targetAt_reg ht
    exact .inl ⟨h32, regAt_address hr⟩
  | byte b a =>
    obtain ⟨h8, ha, ho⟩ := targetAt_byte ht
    cases b <;> simp only [Params.size, ibufOffset, rbufOffset] at ha ho
    · exact .inr (.inl ⟨h8, by omega, by omega⟩)
    · exact .inr (.inr ⟨h8, by omega, by omega⟩)

theorem targetAt_byte_isSome {p : Params} {off : Nat}
    (h : (ibufOffset ≤ off ∧ off < ibufOffset + p.ibufSize)
      ∨ (rbufOffset ≤ off ∧ off < rbufOffset + p.rbufSize)) : (targetAt p off 8).isSome = true := by
  rw [targetAt, if_neg (by decide), if_pos rfl]
  split
  · rfl
  · rw [if_pos (h.resolve_left ‹_›)]
    rfl

theorem busTarget_of_busAdmits {p : Params} {addr bits : Nat} (h : BusAdmits p addr bits) :
    ∃ x, busTarget p addr bits = some x := by
  obtain ⟨hb, hrow⟩ := h
  rw [← Option.isSome_iff_exists, busTarget, if_pos hb]
  rcases hrow with ⟨rfl, hlt, h4⟩ | ⟨rfl, hrange⟩ | ⟨rfl, hrange⟩
  · rw [targetAt, if_pos rfl, Option.isSome_map]
    exact regAt_isSome hlt h4
  · exact targetAt_byte_isSome (.inl hrange)
  · exact targetAt_byte_isSome (.inr hrange)

theorem busTarget_eq_none {p : Params} {addr bits : Nat} (h : ¬BusAdmits p addr bits) :
    busTarget p addr bits = none :=
  Option.eq_none_iff_forall_ne_some.2 fun _ hx => h (busAdmits_of_busTarget hx)

/-- Settles O26: `busTarget` has a row for an access exactly where R37 admits it; an access without one is
HOSTERR, and one with a row is performed, a buffer write where no command is pending. -/
theorem accessOutsideTheMapIsHostErr : Obligations.AccessOutsideTheMapIsHostErr := by
  intro s addr bits _
  refine ⟨fun hn => ?_, fun ha => ?_⟩
  · have target : busTarget s.afterHead.params addr bits = none := busTarget_eq_none hn
    refine ⟨fun h => ?_, fun v h => ?_⟩ <;> rw [step_hostDoes h, hostAccess, target]
  · obtain ⟨x, hx⟩ := busTarget_of_busAdmits ha
    have target : busTarget s.afterHead.params addr bits = some x := hx
    refine ⟨fun h => ?_, fun v h hp => ?_⟩ <;> rw [step_hostDoes h, hostAccess, target]
    · cases x <;> exact ⟨_, rfl⟩
    · cases x with
      | reg r => exact ⟨_, rfl⟩
      | byte b a =>
        rcases hp with idle | h32
        · exact ⟨_, if_neg (by simp [idle])⟩
        · obtain ⟨h8, -⟩ := targetAt_byte (busTarget_some hx).2
          omega

/-! ### Buffer bytes through the window (20_memory.md R47, R52, R53) -/

theorem step_byteWrite {s : State} {b : Buffer} {a : Nat} {v : Word} (hp : s.params.Ok)
    (ha : a < s.params.size b) (h : s.HostDoes (.write (byteAddress s.params b a) 8 v)) :
    step s = hostWriteByte b a (v.setWidth 8) s.afterHead := by
  rw [step_hostDoes h, hostAccess, afterHead_params, busTarget_byteAddress hp ha]

theorem step_byteRead {s : State} {b : Buffer} {a : Nat} (hp : s.params.Ok)
    (ha : a < s.params.size b) (h : s.HostDoes (.read (byteAddress s.params b a) 8)) :
    step s = .next { s.afterHead with replies := .byte b a (s.hostByte b a) :: s.replies } := by
  rw [step_hostDoes h, hostAccess, afterHead_params, busTarget_byteAddress hp ha]
  cases b <;> rfl

@[simp] theorem tick_buffer (s : State) (b : Buffer) : s.tick.buffer b = s.buffer b := by
  cases b <;> rfl

@[simp] theorem afterHead_buffer (s : State) (b : Buffer) : s.afterHead.buffer b = s.buffer b := by
  cases b <;> rfl

theorem writeByte_tick_frame (s : State) (b : Buffer) (a : Nat) (v : Byte) :
    (s.writeByte b a v).tick = { s with
      ibuf := (s.writeByte b a v).tick.ibuf, rbuf := (s.writeByte b a v).tick.rbuf,
      draws := s.draws + 1 } := by
  cases b <;> rfl

/-- Settles O22, by the buffer laws of a read after a write. -/
theorem hostByteWriteStoresTheByte : Obligations.HostByteWriteStoresTheByte := by
  intro s b a v ha hok hp h
  refine ⟨(s.afterHead.writeByte b a (v.setWidth 8)).tick, ?_, ?_, fun c k hne => ?_, ?_⟩
  · rw [step_byteWrite hok ha h]
    exact if_neg (by simp [hp])
  · rw [tick_buffer, buffer_writeByte_same]
  · rw [tick_buffer, buffer_writeByte_other _ _ hne, afterHead_buffer]
  · exact writeByte_tick_frame ..

/-- Settles O23: a byte write reaches its buffer and finds BUSY = 1; a register write leaves the pending
command as it is. -/
theorem busyBufferWriteIsHazard : Obligations.BusyBufferWriteIsHazard := by
  intro s v hp
  refine ⟨fun b a ha hok h => ?_, fun off hoff h => ?_⟩
  · rw [step_byteWrite hok ha h]
    exact if_pos hp
  · simp only [List.mem_cons, List.not_mem_nil, or_false] at hoff
    obtain ⟨r, hr⟩ : ∃ r, regAt off = some r := by
      rcases hoff with rfl | rfl | rfl <;> exact ⟨_, rfl⟩
    refine ⟨_, step_registerWrite hr h, ?_⟩
    rw [hostWrite, regWrite_pending_frame (s := s.afterHead) hp]
    exact ⟨hp, rfl, rfl, rfl, rfl, rfl, rfl, rfl, rfl, rfl⟩

theorem legal_decode {p : Params} {w : Word} {a0 a1 il : Nat} {i : Instr}
    (h : legal p w a0 a1 il = .ok i) : decode w = .ok i := by
  unfold legal at h
  split at h
  · split at h
    · cases h
      assumption
    · cases h
  · cases h

theorem extractPending_of_idle {s : State} (h : s.pending = false) : s.extractPending = false := by
  simp [State.extractPending, h]

theorem extractPending_of_latched {s : State} {i : Instr} (hl : s.latched = .ok i) (hi : i ≠ .extract) :
    s.extractPending = false := by
  rw [State.extractPending, legal_decode hl]
  cases i <;> simp at hi ⊢

theorem hostByte_written {s : State} {b : Buffer} {a : Nat} {v : Byte}
    (hb : b = .rbuf → s.extractPending = false) (h : (s.buffer b).read a = some v) :
    s.hostByte b a = v := by
  have : ¬(b = .rbuf ∧ s.extractPending = true) := by
    rintro ⟨rfl, he⟩
    simp [hb rfl] at he
  rw [State.hostByte, if_neg this, h]

theorem step_byteRead_written {s : State} {b : Buffer} {a : Nat} {v : Byte} (hp : s.params.Ok)
    (ha : a < s.params.size b) (h : s.HostDoes (.read (byteAddress s.params b a) 8))
    (hb : b = .rbuf → s.extractPending = false) (hv : (s.buffer b).read a = some v) :
    step s = .next { s.afterHead with replies := .byte b a v :: s.replies } := by
  rw [step_byteRead hp ha h, hostByte_written hb hv]

/-- Settles O24: a register read answers with the register, a byte read with the buffer's byte unless RBUF is
the output of a pending EXTRACT. -/
theorem busyReadsSeeTheStateBefore : Obligations.BusyReadsSeeTheStateBefore := by
  intro s _ hok
  exact ⟨fun off r hr h => step_registerRead hr h,
    fun a v ha hv h => step_byteRead_written hok ha h nofun hv,
    fun i a v hl hi ha hv h => step_byteRead_written hok ha h (fun _ => extractPending_of_latched hl hi) hv,
    fun a ha _ h => ⟨_, step_byteRead hok ha h⟩⟩

/-- Settles O54: with BUSY = 0 no EXTRACT is pending, so a written byte is what a read answers with. -/
theorem hostByteReadReturnsTheByte : Obligations.HostByteReadReturnsTheByte := by
  intro s b a ha hok hp h
  exact ⟨fun v hv => step_byteRead_written hok ha h (fun _ => extractPending_of_idle hp) hv,
    fun _ => ⟨_, step_byteRead hok ha h⟩⟩

/-! ### Reads have no side effect (20_memory.md R46) -/

theorem regRead_reply (s : State) (x : Reply) (r : Reg) : (s.reply x).regRead r = s.regRead r := by
  cases r <;> rfl

theorem hostByte_reply (s : State) (x : Reply) (b : Buffer) (a : Nat) :
    (s.reply x).hostByte b a = s.hostByte b a := by
  cases b <;> rfl

/-- Settles O25: a read's answer depends on no reply, which is all that a read changes. -/
theorem hostReadsAreIdempotent : Obligations.HostReadsAreIdempotent := by
  intro s t addr bits h
  simp only [hostAccess] at h
  split at h
  · rename_i r target
    cases h
    refine ⟨.word r (s.regRead r), rfl, ?_⟩
    simp only [hostAccess, hostRead, reply_params, target, regRead_reply]
    rfl
  · rename_i b k target
    cases h
    refine ⟨.byte b k (s.hostByte b k), rfl, ?_⟩
    simp only [hostAccess, hostReadByte, reply_params, target, hostByte_reply]
    rfl
  · cases h

/-! ### Several engines (20_memory.md R54) -/

/-- A platform's step at `k` replaces engine `k` by its next state, if there is one. -/
theorem stepAt_next {sys a : Platform} {k : Nat} : sys.stepAt k = .next a ↔
    ∃ t, a = sys.set k t ∧ ∀ s, sys[k]? = some s → step s = .next t := by
  unfold Platform.stepAt
  cases hk : sys[k]? with
  | none =>
    have same : ∀ t, sys.set k t = sys := fun _ => List.set_eq_of_length_le (List.getElem?_eq_none_iff.1 hk)
    constructor
    · rintro ⟨⟩
      exact ⟨State.reset, (same _).symm, nofun⟩
    · rintro ⟨t, rfl, -⟩
      rw [same]
  | some s => cases hs : step s <;> simp [hs, eq_comm]

/-- Settles O53: each step replaces its own engine's state by what that state alone gives. -/
theorem instancesShareNothing : Obligations.InstancesShareNothing := by
  intro sys a ab j k hjk hj hk
  obtain ⟨t, rfl, ht⟩ := stepAt_next.1 hj
  obtain ⟨u, rfl, hu⟩ := stepAt_next.1 hk
  have kept_k : (sys.set j t)[k]? = sys[k]? := List.getElem?_set_ne hjk
  have kept_j : (sys.set k u)[j]? = sys[j]? := List.getElem?_set_ne hjk.symm
  exact ⟨sys.set k u, stepAt_next.2 ⟨u, rfl, kept_k ▸ hu⟩,
    stepAt_next.2 ⟨t, List.set_comm _ _ hjk, kept_j.symm ▸ ht⟩, kept_k, kept_j⟩

end Sys2Proof.Machine

namespace Sys2Proof

/-! ### The word of a command as a number (30_encoding.md R57 to R60) -/

/-- `OP` of a command (R60); `encode_eq_fields` ties it to the encoder. -/
def Instr.opcode : Instr → Nat
  | .cinit => 1
  | .rdbits _ => 2
  | .rdue => 3
  | .rdse => 4
  | .skipsl _ => 5
  | .findsc => 6
  | .extract => 7

/-- The bits below `OP`: the operand field of the format, the reserved bits being 0 (R58, R59). -/
def Instr.lowBits : Instr → Nat
  | .rdbits n => n
  | .skipsl .sixtyFour => 1
  | _ => 0

theorem lowBits_lt {i : Instr} (h : i.WellFormed) : i.lowBits < 2 ^ 28 := by
  cases i with
  | rdbits n => exact Nat.lt_of_le_of_lt ((wellFormed_rdbits n).1 h).2 (by decide)
  | skipsl size => cases size <;> decide
  | _ => decide

/-- The word of a command is its opcode above its operand field. -/
theorem encode_eq_fields {i : Instr} (h : i.WellFormed) :
    encode i = BitVec.ofNat 32 (i.opcode * 2 ^ 28 + i.lowBits) := by
  cases i with
  | rdbits n =>
    have hn : n < 2 ^ 29 := Nat.lt_of_le_of_lt ((wellFormed_rdbits n).1 h).2 (by decide)
    have : 2 * 2 ^ 28 + n = 0x20000000 ||| n := Nat.two_pow_add_eq_or_of_lt hn 1
    rw [Instr.opcode, Instr.lowBits, this, encode, BitVec.ofNat_or]
  | skipsl size => cases size <;> decide
  | _ => decide

theorem encode_toNat {i : Instr} (h : i.WellFormed) : (encode i).toNat = i.opcode * 2 ^ 28 + i.lowBits := by
  have low := lowBits_lt h
  have op : i.opcode < 8 := by cases i <;> simp only [Instr.opcode] <;> decide
  rw [encode_eq_fields h, BitVec.toNat_ofNat, Nat.mod_eq_of_lt (by omega)]

theorem decodeN_eq (w : Word) (i : Instr) :
    decodeN w i = if w.toNat % 2 ^ 28 = 0 then .ok i else .error .reserved := by
  simp only [decodeN, reservedZeroN_iff]

theorem decodeB_eq (w : Word) :
    decodeB w = if w.toNat % 2 ^ 28 / 2 ^ 6 = 0 then
      if 1 ≤ w.toNat % 2 ^ 6 ∧ w.toNat % 2 ^ 6 ≤ 32 then .ok (.rdbits (w.toNat % 2 ^ 6))
      else .error .count
    else .error .reserved := by
  simp only [decodeB, reservedZeroB_iff, countField_eq, wellFormed_rdbits]

theorem lowBits_sizeField (w : Word) (h : w.toNat % 2 ^ 28 / 2 = 0) :
    (Instr.skipsl (sizeField w)).lowBits = w.toNat % 2 ^ 28 := by
  simp only [sizeField, BitVec.extractLsb'_toNat, Nat.shiftRight_zero, Nat.pow_one]
  split <;> simp only [Instr.lowBits] <;> omega

theorem sizeField_of_lowBits {w : Word} {size : ListSize}
    (h : w.toNat % 2 ^ 28 = (Instr.skipsl size).lowBits) : sizeField w = size := by
  simp only [sizeField, BitVec.extractLsb'_toNat, Nat.shiftRight_zero, Nat.pow_one]
  cases size <;> simp only [Instr.lowBits] at h
  · exact if_pos (by omega)
  · exact if_neg (by omega)

theorem fields_of_decode {w : Word} {i : Instr} (h : decode w = .ok i) :
    i.WellFormed ∧ opField w = i.opcode ∧ w.toNat % 2 ^ 28 = i.lowBits := by
  unfold decode at h
  split at h
  case h_2 hop =>
    obtain ⟨rfl, wf, high⟩ := decodeB_ok h
    refine ⟨wf, hop, ?_⟩
    rw [Instr.lowBits, countField_eq]
    omega
  case h_5 hop =>
    obtain ⟨rfl, high⟩ := decodeS_ok h
    exact ⟨rfl, hop, (lowBits_sizeField w high).symm⟩
  case h_8 => cases h
  all_goals
    obtain ⟨rfl, low⟩ := decodeN_ok h
    exact ⟨rfl, ‹_›, low⟩

theorem decode_of_fields {w : Word} {i : Instr} (wf : i.WellFormed) (hop : opField w = i.opcode)
    (low : w.toNat % 2 ^ 28 = i.lowBits) : decode w = .ok i := by
  unfold decode
  rw [hop]
  cases i with
  | rdbits n =>
    simp only [Instr.lowBits] at low
    have hn := (wellFormed_rdbits n).1 wf
    have count : w.toNat % 2 ^ 6 = n := by omega
    simp only [Instr.opcode, decodeB_eq, count]
    rw [if_pos (by omega), if_pos hn]
  | skipsl size =>
    have high : w.toNat % 2 ^ 28 / 2 = 0 := by
      rw [low]
      cases size <;> rfl
    simp only [Instr.opcode, decodeS, (reservedZeroS_iff w).2 high, sizeField_of_lowBits low, if_true]
  | _ => simp only [Instr.opcode, decodeN_eq, low, Instr.lowBits, if_true]

/-- Settles O1: the two fields of the encoded word are the command's. -/
theorem decodeOfEncodeIsTheCommand : Obligations.DecodeOfEncodeIsTheCommand := by
  intro i wf
  have low := lowBits_lt wf
  have word := encode_toNat wf
  exact decode_of_fields wf (by rw [opField_eq]; omega) (by omega)

/-- Settles O2: a word is its two fields, and those of a word that decodes are its command's. -/
theorem decodedWordIsTheEncoding : Obligations.DecodedWordIsTheEncoding := by
  intro w i h
  obtain ⟨wf, hop, low⟩ := fields_of_decode h
  exact ⟨wf, (encode_eq_fields wf).trans (word_of_fields hop low).symm⟩

/-- Settles O4, by evaluation of the decoder on each word. -/
theorem wordsOfTheOpcodeMapDecode : Obligations.WordsOfTheOpcodeMapDecode := by
  unfold Obligations.WordsOfTheOpcodeMapDecode
  decide

end Sys2Proof

namespace Sys2Proof.Machine

/-! ### The checks of `Legal` in their order (30_encoding.md R61) -/

/-- The reason with which a word is refused, if it is. -/
def refusal : Except IllReason Instr → Option IllReason
  | .ok _ => none
  | .error r => some r

theorem refusal_legal (p : Params) (w : Word) (a0 a1 il : Nat) : refusal (legal p w a0 a1 il) =
    match decode w with
    | .ok i => if inRange p i a0 a1 il = true then none else some .range
    | .error r => some r := by
  unfold legal
  cases decode w with
  | error r => rfl
  | ok i =>
    dsimp only
    split <;> rfl

section
variable {w : Word} (p : Params) (a0 a1 il : Nat)

/-- The checks of format N: RESERVED, then RANGE. -/
theorem refusal_legal_formatN {i : Instr} (h : decode w = decodeN w i) :
    refusal (legal p w a0 a1 il) =
      if w.toNat % 2 ^ 28 ≠ 0 then some .reserved
      else if ¬inRange p i a0 a1 il = true then some .range else none := by
  rw [refusal_legal, h, decodeN_eq, ite_not, ite_not]
  split_ifs <;> simp only [*] <;> rfl

/-- The checks of format B: RESERVED, then COUNT. -/
theorem refusal_legal_formatB (h : decode w = decodeB w) :
    refusal (legal p w a0 a1 il) =
      if w.toNat % 2 ^ 28 / 2 ^ 6 ≠ 0 then some .reserved
      else if ¬(1 ≤ w.toNat % 2 ^ 28 % 2 ^ 6 ∧ w.toNat % 2 ^ 28 % 2 ^ 6 ≤ 32) then some .count
      else none := by
  rw [refusal_legal, h, decodeB_eq, ite_not, ite_not, Nat.mod_mod_of_dvd _ (by decide)]
  split_ifs <;> rfl

/-- The one check of format S: RESERVED. -/
theorem refusal_legal_formatS (h : decode w = decodeS w) :
    refusal (legal p w a0 a1 il) =
      if w.toNat % 2 ^ 28 / 2 ≠ 0 then some .reserved else none := by
  simp only [refusal_legal, h, decodeS, reservedZeroS_iff, ite_not]
  split_ifs <;> rfl

end

/-- Settles O3, by the opcode: each has the checks of its format, and an opcode outside 1 to 7 none further. -/
theorem legalFollowsTheListOfChecks : Obligations.LegalFollowsTheListOfChecks := by
  intro p w a0 a1 il
  change refusal (legal p w a0 a1 il) = _
  rw [← opField_eq]
  dsimp only
  generalize hop : opField w = op
  match op with
  | 0 => rw [refusal_legal, decode, hop]; rfl
  | 1 => rw [refusal_legal_formatN p a0 a1 il (i := .cinit) (by simp only [decode, hop])]; simp [inRange]
  | 2 => rw [refusal_legal_formatB p a0 a1 il (by simp only [decode, hop])]; simp
  | 3 => rw [refusal_legal_formatN p a0 a1 il (i := .rdue) (by simp only [decode, hop])]; simp [inRange]
  | 4 => rw [refusal_legal_formatN p a0 a1 il (i := .rdse) (by simp only [decode, hop])]; simp [inRange]
  | 5 => rw [refusal_legal_formatS p a0 a1 il (by simp only [decode, hop])]; simp
  | 6 => rw [refusal_legal_formatN p a0 a1 il (i := .findsc) (by simp only [decode, hop])]; simp [inRange]
  | 7 =>
    rw [refusal_legal_formatN p a0 a1 il (i := .extract) (by simp only [decode, hop])]
    simp [inRange, and_assoc]
  | n + 8 => rw [refusal_legal, decode, hop]; simp

end Sys2Proof.Machine

namespace Sys2Proof.Machine

open Codes

/-! ### Signed codes (30_encoding.md R65) -/

/-- `sext_32` inverts `twos_32` on the values of 32 bits (00_scope.md R11). -/
theorem sext32_twos32 {x : Int} (lo : -(2 ^ 31) ≤ x) (hi : x < 2 ^ 31) : sext32 (twos32 x) = x := by
  rw [sext32, twos32, BitVec.toInt_ofInt]
  exact Int.bmod_eq_of_le (by simpa using lo) (by simpa using hi)

theorem writeResult_ok {α : Type} {g : α → Word} {x : Except Fault (α × State)} {v : α} {s : State}
    (h : x = .ok (v, s)) : writeResult g x = .next { s with result := g v } := by
  rw [h, writeResult]

/-- Settles O35: `decodeSE` inverts `seCode` from the cursor on, and RDSE writes the value's pattern. -/
theorem rdseDecodesTheCodeOfEveryValue : Obligations.RdseDecodesTheCodeOfEveryValue := by
  intro s x lo hi ⟨hr, _⟩ h
  refine ⟨sext32_twos32 (by omega) (by omega), ?_⟩
  have code := decodeSE_seCode hr ⟨lo, hi⟩ h
  rw [seek_cursor_self] at code
  exact writeResult_ok code

/-! ### Fixed-width fields (30_encoding.md R63, 40_bitreader.md R75) -/

theorem fieldValue_succ (b : Nat → Bool) (n : Nat) :
    fieldValue b (n + 1) = 2 * fieldValue b n + (b n).toNat := by
  rw [fieldValue, Finset.sum_range_succ, fieldValue, Finset.mul_sum]
  congr 1
  · refine Finset.sum_congr rfl fun i hi => ?_
    have : n + 1 - 1 - i = n - 1 - i + 1 := by
      have := Finset.mem_range.1 hi
      omega
    rw [this]
    ring
  · simp

/-- `s` after `n` bit reads (40_bitreader.md R74): BITPOS moves over those inside the buffer, and those past the
end set TRUNC and count in DEFICIT. -/
def State.afterReads (s : State) (n : Nat) : State :=
  { s with
    bitpos := zext32 (min (s.cursor + n) s.endBit)
    trunc := s.trunc || decide (s.endBit < s.cursor + n)
    deficit := if s.endBit < s.cursor + n then deficitAfter s.deficit (s.cursor + n - s.endBit)
               else s.deficit }

theorem deficitSucc_deficitAfter (d : Word) (n : Nat) :
    deficitSucc (deficitAfter d n) = deficitAfter d (n + 1) := by
  apply BitVec.eq_of_toNat_eq
  rw [deficitSucc_toNat, deficitAfter, deficitAfter, Config.deficitMax, zext32_toNat (by omega),
    zext32_toNat (by omega)]
  omega

theorem deficitAfter_zero (d : Word) : deficitAfter d 0 = d := by
  apply BitVec.eq_of_toNat_eq
  have := d.isLt
  rw [deficitAfter, Config.deficitMax, zext32_toNat (by omega)]
  omega

theorem afterReads_deficit (s : State) (n : Nat) :
    (s.afterReads n).deficit = deficitAfter s.deficit (s.cursor + n - s.endBit) := by
  simp only [State.afterReads]
  split
  · rfl
  · rw [Nat.sub_eq_zero_of_le (by omega), deficitAfter_zero]

theorem afterReads_inside {s : State} {n : Nat} (h : s.cursor + n ≤ s.endBit) :
    s.afterReads n = s.seek (s.cursor + n) := by
  simp [State.afterReads, State.seek, Nat.not_lt.2 h, Nat.min_eq_left h]

theorem afterReads_bitpos_past {s : State} {n : Nat} (h : s.endBit ≤ s.cursor + n) :
    (s.afterReads n).bitpos = zext32 s.endBit := by
  rw [State.afterReads, Nat.min_eq_right h]

theorem afterReads_pastEnd {s : State} {n : Nat} (h : s.endBit ≤ s.cursor + n) :
    (s.afterReads n).pastEnd = s.afterReads (n + 1) := by
  have bitpos : (s.afterReads n).bitpos = (s.afterReads (n + 1)).bitpos := by
    rw [afterReads_bitpos_past h, afterReads_bitpos_past (h.trans (Nat.le_succ _))]
  have trunc : true = (s.afterReads (n + 1)).trunc := by
    have past : s.endBit < s.cursor + (n + 1) := by omega
    simp [State.afterReads, past]
  have deficit : deficitSucc (s.afterReads n).deficit = (s.afterReads (n + 1)).deficit := by
    rw [afterReads_deficit, afterReads_deficit, deficitSucc_deficitAfter, ← Nat.add_assoc,
      Nat.sub_add_comm h]
  calc (s.afterReads n).pastEnd
      = { s with bitpos := (s.afterReads n).bitpos, trunc := true,
                 deficit := deficitSucc (s.afterReads n).deficit } := rfl
    _ = s.afterReads (n + 1) := by
      rw [bitpos, trunc, deficit]
      rfl

section
variable {s : State} (hs : s.CursorOk)
include hs

theorem afterReads_zero : s.afterReads 0 = s := by
  rw [afterReads_inside hs.2, Nat.add_zero, seek_cursor_self]

theorem afterReads_cursor_past {n : Nat} (h : s.endBit ≤ s.cursor + n) :
    (s.afterReads n).endBit ≤ (s.afterReads n).cursor := by
  have size : s.endBit < 2 ^ 32 := by
    have := hs.1
    simp only [State.endBit]
    omega
  rw [State.cursor, afterReads_bitpos_past h, zext32_toNat size]
  exact Nat.le_refl _

/-- The next bit read after `n`. -/
theorem getBit_afterReads {n : Nat} {b : Nat → Bool} (h : s.ReadsBits s.cursor (n + 1) b) :
    getBit (s.afterReads n) = .ok (b n, s.afterReads (n + 1)) := by
  have bit := h n (Nat.lt_succ_self n)
  by_cases inside : s.cursor + n < s.endBit
  · rw [if_pos inside] at bit
    rw [afterReads_inside inside.le, afterReads_inside inside]
    exact getBit_seek hs.1 inside bit
  · rw [if_neg inside] at bit
    have past := Nat.le_of_not_lt inside
    rw [bit, ← afterReads_pastEnd past]
    exact getBit_past (afterReads_cursor_past hs past)

theorem readBits_fieldValue {n : Nat} {b : Nat → Bool} (h : s.ReadsBits s.cursor n b) :
    readBits n s = .ok (fieldValue b n, s.afterReads n) := by
  induction n with
  | zero =>
    rw [afterReads_zero hs]
    rfl
  | succ n ih =>
    have first := ih fun i hi => h i (Nat.lt_succ_of_lt hi)
    rw [readBits] at first ⊢
    rw [readBitsFrom_add, first]
    dsimp only [readBitsFrom]
    rw [getBit_afterReads hs h, fieldValue_succ]

end

/-- Settles O29: RDBITS writes what `n` bit reads give. -/
theorem rdbitsReadsTheField : Obligations.RdbitsReadsTheField := by
  intro s n b _ hs h
  exact writeResult_ok (readBits_fieldValue hs h)

/-! ### Adjacent fields (30_encoding.md R71) -/

theorem writeResult_next {α : Type} {g : α → Word} {x : Except Fault (α × State)} {t : State}
    (h : writeResult g x = .next t) : ∃ v s, x = .ok (v, s) ∧ t = { s with result := g v } := by
  unfold writeResult at h
  split at h
  · cases h
    exact ⟨_, _, rfl, rfl⟩
  · cases h

theorem exec_rdbits_next {n : Nat} {s t : State} (h : exec (.rdbits n) s = .next t) :
    ∃ v u, readBits n s = .ok (v, u) ∧ t = { u with result := zext32 v } :=
  writeResult_next h

/-- `s` with RESULT replaced, which no cursor operation reads. -/
def State.withResult (s : State) (r : Word) : State := { s with result := r }

theorem getBit_withResult (s : State) (r : Word) :
    getBit (s.withResult r) = (getBit s).map (fun p => (p.1, p.2.withResult r)) := by
  have streamBit : (s.withResult r).streamBit (s.withResult r).cursor = s.streamBit s.cursor := rfl
  by_cases inside : s.cursor < s.endBit
  · have inside' : (s.withResult r).cursor < (s.withResult r).endBit := inside
    rw [getBit, getBit, if_pos inside, if_pos inside', streamBit]
    cases s.streamBit s.cursor <;> rfl
  · have past := Nat.le_of_not_lt inside
    rw [getBit_past past, getBit_past (s := s.withResult r) past]
    rfl

theorem readBitsFrom_withResult (n v : Nat) (s : State) (r : Word) :
    readBitsFrom n v (s.withResult r) = (readBitsFrom n v s).map (fun p => (p.1, p.2.withResult r)) := by
  induction n generalizing v s with
  | zero => rfl
  | succ n ih =>
    simp only [readBitsFrom, getBit_withResult]
    cases getBit s with
    | error f => rfl
    | ok p => exact ih _ _

/-- A completed read does not depend on RESULT. -/
theorem readBits_ok_of_withResult {n w : Nat} {s t : State} {r : Word}
    (h : readBits n (s.withResult r) = .ok (w, t)) :
    ∃ u, readBits n s = .ok (w, u) ∧ t = u.withResult r := by
  rw [readBits, readBitsFrom_withResult] at h
  rw [readBits]
  cases hr : readBitsFrom n 0 s with
  | error f =>
    rw [hr] at h
    cases h
  | ok p =>
    rw [hr] at h
    cases h
    exact ⟨p.2, rfl, rfl⟩

/-- Two reads in a row are one of both widths. -/
theorem readBits_add {m n v w : Nat} {s t u : State} (hm : readBits m s = .ok (v, t))
    (hn : readBits n t = .ok (w, u)) : readBits (m + n) s = .ok (v * 2 ^ n + w, u) := by
  rw [readBits] at hm ⊢
  rw [readBitsFrom_add, hm]
  dsimp only
  rw [readBitsFrom_value, hn]

theorem readBits_toNat {n w : Nat} {s t : State} (h : readBits n s = .ok (w, t)) (hn : n ≤ 32) :
    (zext32 w).toNat = w :=
  zext32_toNat (Nat.lt_of_lt_of_le (readBits_lt h) (Nat.pow_le_pow_right (by decide) hn))

/-- Settles O31: a read splits, and the RESULT of its first part is not read by the second. -/
theorem splitReadsJoin : Obligations.SplitReadsJoin := by
  intro s t u m n hmn ht hu
  obtain ⟨v, s', first, rfl⟩ := exec_rdbits_next ht
  obtain ⟨w, t', hw, rfl⟩ := exec_rdbits_next hu
  obtain ⟨u, second, rfl⟩ := readBits_ok_of_withResult (s := s') hw
  dsimp only
  rw [readBits_toNat first (by omega), readBits_toNat second (by omega)]
  have joined : exec (.rdbits (m + n)) s = .next { u with result := zext32 (v * 2 ^ n + w) } :=
    writeResult_ok (readBits_add first second)
  exact joined

end Sys2Proof.Machine

namespace Sys2Proof.Machine

/-! ### WAIT and the command mnemonics (30_encoding.md R70, R71) -/

theorem hostWait_eq (rest : List HostOp) (s : State) : hostWait rest s =
    { s with host := if s.pending = true then s.host else rest
             replies := .word .status s.statusWord :: s.replies } := by
  unfold hostWait
  split <;> rfl

theorem step_hostMoves {s : State} (h : s.HostMoves) :
    step s = hostTurn { s with turns := s.turns.tail } := by
  rcases h with ht | ⟨ht, hp⟩
  · obtain ⟨ts, ht⟩ := List.head?_eq_some_iff.1 ht
    simp only [step, agentStep, ht, takeTurn, List.tail_cons]
  · have hd : defaultTurn s = .host := by simp [defaultTurn, hp]
    simp only [step, agentStep, ht, hd, takeTurn, List.tail_nil]
    rw [← ht]

/-- Settles O55: the host's turn is one read of STATUS, whose bit 0 decides whether the WAIT stays. -/
theorem waitPollsUntilIdle : Obligations.WaitPollsUntilIdle := by
  intro s rest hm hh
  refine ⟨(statusWord_getLsbD s 0).trans (by simp), ?_⟩
  rw [step_hostMoves hm]
  simp only [hostTurn, hh, hostWait_eq]
  rfl

theorem run_three {s t u v : State} (h1 : step s = .next t) (h2 : step t = .next u)
    (h3 : step u = .next v) : Host.Core.run core 3 s = .next v := by
  have h1 : core.step s = .next t := h1
  have h2 : core.step t = .next u := h2
  have h3 : core.step u = .next v := h3
  simp only [Host.Core.run, h1, h2, h3]

theorem legal_encode {p : Params} {i : Instr} {a0 a1 il : Nat} (wf : i.WellFormed)
    (hr : inRange p i a0 a1 il = true) : legal p (encode i) a0 a1 il = .ok i := by
  rw [legal, decodeOfEncodeIsTheCommand i wf]
  exact if_pos hr

/-- `s` after the host's write of the word of `i` to CMD, accepted (20_memory.md R48). -/
def State.issued (s : State) (i : Instr) : State := (s.afterHead.latch (encode i)).tick

theorem issued_eq {s : State} {i : Instr} {rest : List HostOp}
    (hh : s.host = issueAndWait s.params i ++ rest) :
    s.issued i = { s with lcmd := encode i, larg0 := s.arg0, larg1 := s.arg1, lilen := s.ilen.setWidth 25,
                          pending := true, host := .wait :: rest, turns := s.turns.tail,
                          draws := s.draws + 1 } := by
  rw [State.issued, State.afterHead, hh]
  rfl

section
variable {s : State} {i : Instr} (wf : i.WellFormed)
  (hr : inRange s.params i s.arg0.toNat s.arg1.toNat s.ilen.toNat = true)
include wf hr

/-- The host issues a legal command to an idle engine. -/
theorem step_issues {rest : List HostOp} (idle : s.pending = false) (hm : s.HostMoves)
    (hh : s.host = issueAndWait s.params i ++ rest) : step s = .next (s.issued i) := by
  have does : s.HostDoes (.write (s.address 0x00) 32 (encode i)) := ⟨hm, by rw [hh]; rfl⟩
  rw [step_registerWrite (r := .cmd) rfl does, hostWrite, State.regWrite, State.issue,
    if_neg (by simp [idle])]
  simp only [afterHead_params, afterHead_arg0, afterHead_arg1, afterHead_ilen, legal_encode wf hr]
  rfl

/-- The latch holds the issued command: LILEN has room for ILEN (10_state.md R31). -/
theorem issued_latched (hil : s.ilen.toNat < 2 ^ 25) : (s.issued i).latched = .ok i := by
  show legal s.params (encode i) s.arg0.toNat s.arg1.toNat (s.ilen.setWidth 25).toNat = _
  rw [BitVec.toNat_setWidth, Nat.mod_eq_of_lt hil]
  exact legal_encode wf hr

end

/-- The turns `ts` let the host issue, the engine execute and the host poll, and leave `later`: they are
given, or the default order is all there is. -/
abbrev IssueTurns (ts later : List Turn) : Prop :=
  (ts = [] ∧ later = []) ∨ ts = .host :: .engine :: .host :: later

/-- The three steps of a mnemonic: the accepted issue, the command with its completion, and the poll that finds
BUSY = 0. -/
theorem run_mnemonic {s t : State} {i : Instr} {rest : List HostOp} {later : List Turn} (wf : i.WellFormed)
    (idle : s.pending = false) (hturns : IssueTurns s.turns later) (hil : s.ilen.toNat < 2 ^ 25)
    (hh : s.host = issueAndWait s.params i ++ rest)
    (hr : inRange s.params i s.arg0.toNat s.arg1.toNat s.ilen.toNat = true)
    (hx : exec i { s.issued i with turns := s.turns.tail.tail } = .next t) :
    ∃ v : Word, v.getLsbD 0 = false
      ∧ Host.Core.run core 3 s = .next { t with
          pending := false, host := rest, turns := later, replies := .word .status v :: t.replies,
          draws := t.draws + 1 } := by
  have hostIssues : s.HostMoves := by
    rcases hturns with ⟨h, -⟩ | h <;> simp [State.HostMoves, h, idle]
  have issue := step_issues wf hr idle hostIssues hh
  have engineMoves : (s.issued i).turns.head? = some .engine ∨ (s.issued i).turns = [] := by
    rw [issued_eq hh]
    rcases hturns with ⟨h, -⟩ | h <;> simp [h]
  have execute : step (s.issued i) = .next t.complete :=
    step_engineCompletes ⟨engineMoves, rfl, issued_latched wf hr hil⟩ hx
  rw [issued_eq hh] at hx
  have host : t.complete.host = .wait :: rest := by
    rw [exec_frame hx]
    rfl
  have turns : t.complete.turns = s.turns.tail.tail := by
    rw [exec_frame hx]
    rfl
  have hostPolls : t.complete.HostMoves := by
    rw [State.HostMoves, turns]
    rcases hturns with ⟨h, -⟩ | h <;> simp [h]
  obtain ⟨busy, poll⟩ := waitPollsUntilIdle t.complete rest hostPolls host
  refine ⟨_, busy, ?_⟩
  rw [run_three issue execute poll, turns]
  rcases hturns with ⟨h, rfl⟩ | h <;> simp [h, State.complete]

/-- Settles O27: with no turn given the default order is the host, the engine, the host. -/
theorem mnemonicRunsTheCommand : Obligations.MnemonicRunsTheCommand := by
  intro s t i rest wf idle ht hil hh hr hx
  have turns : t.turns = [] := by
    rw [exec_frame hx]
    exact ht
  have issued : exec i { s.issued i with turns := s.turns.tail.tail } = .next t := by
    rw [issued_eq hh, ht]
    rwa [ht] at hx
  obtain ⟨v, hv, hrun⟩ := run_mnemonic wf idle (.inl ⟨ht, rfl⟩) hil hh hr issued
  rw [← turns] at hrun
  exact ⟨v, hv, hrun⟩

/-- Settles O56: the given turns are the host, the engine, the host. -/
theorem mnemonicRunsTheCommandInTurn : Obligations.MnemonicRunsTheCommandInTurn := by
  intro s t i rest ts wf idle ht hil hh hr hx
  have issued : exec i { s.issued i with turns := s.turns.tail.tail } = .next t := by
    rwa [issued_eq hh, ht]
  exact run_mnemonic wf idle (.inr ht) hil hh hr issued

end Sys2Proof.Machine

namespace Sys2Proof.Machine

/-! ### What a bit read depends on (40_bitreader.md R76) -/

/-- `s` and `u` have the same cursor over the same bytes: RLEN, BITPOS and `RBUF[0 .. RLEN)` agree. -/
structure SameCursor (s u : State) : Prop where
  rlen : s.rlen = u.rlen
  bitpos : s.bitpos = u.bitpos
  rbuf : ∀ a < s.rlen.toNat, s.rbuf.read a = u.rbuf.read a

section
variable {s u : State} (h : SameCursor s u)
include h

theorem SameCursor.cursor : s.cursor = u.cursor := by rw [State.cursor, State.cursor, h.bitpos]

theorem SameCursor.endBit : s.endBit = u.endBit := by rw [State.endBit, State.endBit, h.rlen]

theorem SameCursor.advance : SameCursor s.advance u.advance :=
  ⟨h.rlen, by simp only [advance_bitpos, h.bitpos], h.rbuf⟩

theorem SameCursor.pastEnd : SameCursor s.pastEnd u.pastEnd := ⟨h.rlen, h.bitpos, h.rbuf⟩

/-- A cursor inside the buffer stands in one of its bytes. -/
theorem SameCursor.read_at (inside : s.cursor < s.endBit) :
    s.rbuf.read (s.cursor / 8) = u.rbuf.read (u.cursor / 8) := by
  rw [← h.cursor]
  exact h.rbuf _ (Nat.div_lt_of_lt_mul inside)

theorem SameCursor.getBit_ok {b : Bool} {t : State} (hs : getBit s = .ok (b, t)) :
    ∃ t', getBit u = .ok (b, t') ∧ SameCursor t t' := by
  rcases getBit_cases hs with ⟨inside, bit, rfl⟩ | ⟨past, rfl, rfl⟩
  · rw [streamBit_ok, h.read_at inside, h.cursor, ← streamBit_ok] at bit
    rw [h.cursor, h.endBit] at inside
    exact ⟨_, getBit_inside inside bit, h.advance⟩
  · rw [h.cursor, h.endBit] at past
    exact ⟨_, getBit_past past, h.pastEnd⟩

theorem SameCursor.getBit_error {f : Fault} (hs : getBit s = .error f) : getBit u = .error f := by
  obtain ⟨inside, unwritten, fault⟩ := Machine.getBit_error.1 hs
  rw [h.read_at inside] at unwritten
  rw [h.cursor, h.endBit] at inside
  rw [h.cursor] at fault
  exact Machine.getBit_error.2 ⟨inside, unwritten, fault⟩

end

theorem SameCursor.readBitsFrom_ok {n v w : Nat} {s u t : State} (h : SameCursor s u)
    (hs : readBitsFrom n v s = .ok (w, t)) : ∃ t', readBitsFrom n v u = .ok (w, t') ∧ SameCursor t t' := by
  induction n generalizing v s u with
  | zero =>
    cases hs
    exact ⟨u, rfl, h⟩
  | succ n ih =>
    rw [readBitsFrom] at hs ⊢
    split at hs
    next b s' hb =>
      obtain ⟨u', hu, h'⟩ := h.getBit_ok hb
      rw [hu]
      exact ih h' hs
    next => cases hs

theorem SameCursor.readBitsFrom_error {n v : Nat} {s u : State} {f : Fault} (h : SameCursor s u)
    (hs : readBitsFrom n v s = .error f) : readBitsFrom n v u = .error f := by
  induction n generalizing v s u with
  | zero => cases hs
  | succ n ih =>
    rw [readBitsFrom] at hs ⊢
    split at hs
    next b s' hb =>
      obtain ⟨u', hu, h'⟩ := h.getBit_ok hb
      rw [hu]
      exact ih h' hs
    next g hg =>
      rw [h.getBit_error hg]
      exact hs

/-- Settles O30: every bit read keeps the two cursors the same, and gives both the same bit or fault. -/
theorem rdbitsDependsOnTheCursorAlone : Obligations.RdbitsDependsOnTheCursorAlone := by
  intro s u n hr hb hm
  have same : SameCursor s u := ⟨hr, hb, hm⟩
  refine ⟨fun t ht => ?_, fun f hf => ?_⟩
  · obtain ⟨v, s', read, rfl⟩ := exec_rdbits_next ht
    obtain ⟨u', read', same'⟩ := same.readBitsFrom_ok read
    exact ⟨_, writeResult_ok read', rfl, same'.bitpos.symm⟩
  · exact writeResult_fault.2 (same.readBitsFrom_error (writeResult_fault.1 hf))

/-! ### A fresh cursor (40_bitreader.md R77) -/

/-- Settles O28: the word decodes to CINIT, whose one check is the range of its length. -/
theorem cinitStartsAFreshCursor : Obligations.CinitStartsAFreshCursor := by
  refine ⟨fun _ => rfl, fun p a0 a1 il => ?_⟩
  have decoded : decode 0x10000000#32 = .ok .cinit := decodeOfEncodeIsTheCommand .cinit (by decide)
  simp only [legal, decoded, inRange, decide_eq_true_eq]

end Sys2Proof.Machine

namespace Sys2Proof.Machine

open Codes

/-! ### Unsigned codes (41_expgolomb.md R80, R86) -/

/-- Settles O33: `decodeUE` inverts `ueCode` from the cursor on, and RDUE writes the value. -/
theorem rdueDecodesTheCodeOfEveryValue : Obligations.RdueDecodesTheCodeOfEveryValue := by
  intro s v hv ⟨hr, _⟩ h
  have length : s.cursor + (ueCode v).length = s.cursor + 2 * (v + 1).log2 + 1 := by
    rw [ueCode_length]
    omega
  have code := decodeUE_ueCode hr hv h
  rw [seek_cursor_self, length] at code
  exact writeResult_ok code

theorem hasBits_append_of {s : State} {k : Nat} {as bs : List Bool} (ha : s.HasBits k as)
    (hb : s.HasBits (k + as.length) bs) : s.HasBits k (as ++ bs) := by
  induction as generalizing k with
  | nil => exact hb
  | cons a as ih =>
    obtain ⟨hlt, hbit, hrest⟩ := hasBits_cons.1 ha
    rw [List.length_cons, Nat.add_comm as.length 1, ← Nat.add_assoc] at hb
    exact hasBits_cons.2 ⟨hlt, hbit, ih hrest hb⟩

theorem deficitSucc_eq (d : Word) : deficitSucc d = deficitAfter d 1 := by
  rw [← deficitSucc_deficitAfter, deficitAfter_zero]

/-- The prefix loop with no bit left: MALF where zeros were read before (41_expgolomb.md R80). -/
theorem uePrefix_atEnd {fuel z : Nat} {s : State} (h : s.endBit ≤ s.cursor) :
    uePrefix (fuel + 1) z s = .ok (none, if 1 ≤ z then s.pastEnd.flagMalf else s.pastEnd) := by
  rw [uePrefix, if_pos h]

/-- A code whose prefix cannot be completed gives 0. -/
theorem decodeUE_incomplete {s t : State} (h : uePrefix (Config.ueMaxLz + 1) 0 s = .ok (none, t)) :
    decodeUE s = .ok (0, t) := by
  rw [decodeUE, h]

theorem decodeUE_atEnd {s : State} (h : s.endBit ≤ s.cursor) : decodeUE s = .ok (0, s.pastEnd) :=
  decodeUE_incomplete (uePrefix_atEnd h)

section
variable {s : State} (hs : s.CursorOk)
include hs

/-- Reads after a move over `m` bits inside the buffer are the later part of `m + n` reads. -/
theorem afterReads_seek {m n : Nat} (h : s.cursor + m ≤ s.endBit) :
    (s.seek (s.cursor + m)).afterReads n = s.afterReads (m + n) := by
  rw [State.afterReads, seek_cursor hs.1 h, Nat.add_assoc]
  rfl

/-- A code of `lz ≤ 31` zeros and a 1 bit inside the buffer; its suffix may run past the end. -/
theorem decodeUE_fieldValue {lz : Nat} {b : Nat → Bool} (hlz : lz ≤ 31)
    (hz : s.HasBits s.cursor (List.replicate lz false)) (h1 : s.HasBits (s.cursor + lz) [true])
    (hb : s.ReadsBits (s.cursor + lz + 1) lz b) :
    decodeUE s = .ok (2 ^ lz - 1 + fieldValue b lz, s.afterReads (2 * lz + 1)) := by
  have inside : s.cursor + (lz + 1) ≤ s.endBit := h1.1
  have code := decodeUE_prefix hs.1 hlz (hasBits_append_of hz (by rwa [List.length_replicate]))
  have cursor : (s.seek (s.cursor + (lz + 1))).cursor = s.cursor + (lz + 1) := seek_cursor hs.1 inside
  have suffix := readBits_fieldValue (s := s.seek (s.cursor + (lz + 1))) (n := lz) (b := b)
    ⟨hs.1, by rw [cursor]; exact inside⟩ (by rw [cursor]; exact hb)
  rw [afterReads_seek hs inside, show lz + 1 + lz = 2 * lz + 1 by omega] at suffix
  rw [seek_cursor_self, Nat.add_assoc, suffix] at code
  exact code

/-- 1 to 31 zeros that reach the end of the buffer. -/
theorem decodeUE_zerosToEnd {lz : Nat} (h0 : 1 ≤ lz) (hlz : lz ≤ 31)
    (hz : s.HasBits s.cursor (List.replicate lz false)) (hend : s.cursor + lz = s.endBit) :
    decodeUE s = .ok (0, (s.seek s.endBit).pastEnd.flagMalf) := by
  have zeros := uePrefix_afterZeros hs.1 hlz hz
  have past : (s.seek s.endBit).endBit ≤ (s.seek s.endBit).cursor :=
    Nat.le_of_eq (seek_cursor hs.1 (Nat.le_refl _)).symm
  rw [seek_cursor_self, hend, uePrefix_atEnd past, if_pos h0] at zeros
  exact decodeUE_incomplete zeros

/-- 32 zeros inside the buffer are no prefix of a code. -/
theorem decodeUE_zeros32 (hz : s.HasBits s.cursor (List.replicate 32 false)) :
    decodeUE s = .ok (0, (s.seek (s.cursor + 32)).flagMalf) := by
  have zeros := uePrefix_zeros hs.1 (fuel := 0) (z := 0) hz
  rw [seek_cursor_self] at zeros
  exact decodeUE_incomplete zeros

end

/-- Settles O32: each kind of prefix is one lemma about `decodeUE`, and RDUE writes its value. -/
theorem rdueDecodesEveryPrefix : Obligations.RdueDecodesEveryPrefix := by
  intro s lz hs hz
  refine ⟨fun hlz h1 b hb => ?code, fun h0 hlz hend => ?toEnd, fun _ hend => ?atEnd, ?zeros⟩
  case code => exact writeResult_ok (decodeUE_fieldValue hs hlz hz h1 hb)
  case toEnd =>
    rw [← deficitSucc_eq]
    exact writeResult_ok (decodeUE_zerosToEnd hs h0 hlz hz hend)
  case atEnd =>
    rw [← deficitSucc_eq]
    exact writeResult_ok (decodeUE_atEnd hend.ge)
  case zeros =>
    rintro rfl
    exact writeResult_ok (decodeUE_zeros32 hs hz)

/-! ### The signed map (41_expgolomb.md R81, R84) -/

theorem decodeSE_ok {s t : State} {k : Nat} (h : decodeUE s = .ok (k, t)) :
    decodeSE s = .ok (signedOf k, t) := by
  rw [decodeSE, h]

/-- Settles O34: `decodeSE` maps the code number `decodeUE` reads, which fits RESULT. -/
theorem rdseIsTheSignedMapOfRdue : Obligations.RdseIsTheSignedMapOfRdue := by
  refine fun s => ⟨fun t ht => ?_, fun f hf => ?_⟩
  · obtain ⟨k, u, code, rfl⟩ := writeResult_next (g := zext32) ht
    have bound := (decodeUE_moves code).2
    have result : (zext32 k).toNat = k := zext32_toNat (by omega)
    dsimp only
    rw [result, ← apply_ite twos32]
    exact writeResult_ok (decodeSE_ok code)
  · exact writeResult_fault.2 (decodeSE_error (writeResult_fault.1 hf))

/-! ### Scaling lists (41_expgolomb.md R82, R85) -/

/-- Once `nextScale` is 0 no delta is read. -/
theorem skipEntries_zeroScale (size : Nat) (last : Int) (count : Nat) (s : State) :
    skipEntries size last 0 count s = .ok (count, s) := by
  induction size with
  | zero => rfl
  | succ size ih => rwa [skipEntries, if_neg (not_not.2 rfl)]

theorem lastAfter_of_ne_zero {last next : Int} (h : next ≠ 0) : lastAfter last next = next := if_pos h

/-- The loop over the deltas `ds` that are left of a scaling list. `w` is the running scale before its
reduction modulo 256; `lastScale` equals it while it is not 0. -/
theorem skipEntries_list {s : State} (hr : s.rlen.toNat ≤ 2 ^ 24) {ds : List Int} {size count p : Nat}
    {w last : Int} (hlen : ds.length ≤ size)
    (hw : ∀ k < ds.length, (w + (ds.take k).sum) % 256 ≠ 0)
    (hstop : ds.length < size → (w + ds.sum) % 256 = 0) (hlast : w % 256 ≠ 0 → last = w % 256)
    (hx : ∀ d ∈ ds, -(2 ^ 31 - 1) ≤ d ∧ d ≤ 2 ^ 31 - 1) (h : s.HasBits p (ds.flatMap seCode)) :
    skipEntries size last (w % 256) count (s.seek p)
      = .ok (count + ds.length, s.seek (p + (ds.flatMap seCode).length)) := by
  induction ds generalizing size count p w last with
  | nil =>
    cases size with
    | zero => rfl
    | succ size =>
      have stopped : w % 256 = 0 := by simpa using hstop (Nat.succ_pos _)
      rw [stopped, skipEntries_zeroScale]
      rfl
  | cons d ds ih =>
    obtain ⟨size, rfl⟩ := Nat.exists_eq_add_of_le' (Nat.le_trans (Nat.le_add_left 1 _) hlen)
    rw [List.flatMap_cons] at h
    obtain ⟨hd, hds⟩ := hasBits_append h
    have hnow : w % 256 ≠ 0 := by simpa using hw 0 (Nat.succ_pos _)
    have hw' : ∀ k < ds.length, (w + d + (ds.take k).sum) % 256 ≠ 0 := fun k hk => by
      have := hw (k + 1) (by simpa using hk)
      rwa [List.take_succ_cons, List.sum_cons, ← add_assoc] at this
    have hstop' : ds.length < size → (w + d + ds.sum) % 256 = 0 := fun hlt => by
      have := hstop (by simpa using hlt)
      rwa [List.sum_cons, ← add_assoc] at this
    rw [skipEntries_delta hnow (decodeSE_seCode hr (hx d (by simp)) hd), hlast hnow, Int.emod_add_emod,
      ih (by simpa using hlen) hw' hstop' lastAfter_of_ne_zero
        (fun x hx' => hx x (List.mem_cons_of_mem _ hx')) hds,
      List.flatMap_cons, List.length_append, List.length_cons]
    simp only [Nat.add_assoc, Nat.add_comm 1 ds.length]

/-- Settles O36: the loop over the whole list, from the running scale 8. -/
theorem skipslSkipsOneScalingList : Obligations.SkipslSkipsOneScalingList := by
  intro s size ds ⟨_, hlen, hscale, hstop⟩ hx ⟨hr, _⟩ h
  have hw : ∀ k < ds.length, (8 + (ds.take k).sum) % 256 ≠ 0 := fun k hk => by
    cases k with
    | zero => simp
    | succ k => exact hscale _ hk (Nat.succ_pos k)
  have list := skipEntries_list hr (count := 0) (last := 8) hlen hw hstop (fun _ => rfl) hx h
  rw [seek_cursor_self, Nat.zero_add] at list
  exact writeResult_ok list

/-- `n + 1` bit reads past the end. -/
theorem pastEnd_iterate (n : Nat) (s : State) : State.pastEnd^[n + 1] s
    = { s with trunc := true, deficit := deficitAfter s.deficit (n + 1) } := by
  induction n with
  | zero =>
    rw [Nat.zero_add, ← deficitSucc_eq]
    rfl
  | succ n ih =>
    rw [Function.iterate_succ_apply', ih, ← deficitSucc_deficitAfter s.deficit (n + 1)]
    rfl

/-- Past the end every delta reads as 0, so the scale stays 8 and each entry attempts its delta. -/
theorem skipEntries_pastEnd {size count : Nat} {s : State} (h : s.endBit ≤ s.cursor) :
    skipEntries size Config.initialScale Config.initialScale count s
      = .ok (count + size, State.pastEnd^[size] s) := by
  induction size generalizing count s with
  | zero => rfl
  | succ size ih =>
    rw [skipEntries_delta (by decide) (decodeSE_ok (decodeUE_atEnd h)), Function.iterate_succ_apply,
      Nat.add_comm size 1, ← Nat.add_assoc]
    exact ih (s := s.pastEnd) h

/-- Settles O37: SKIPSL reads past the end once for each of its entries. -/
theorem skipslAtTheEndAttemptsEveryDelta : Obligations.SkipslAtTheEndAttemptsEveryDelta := by
  intro s size h
  obtain ⟨n, hn⟩ : ∃ n, size.entries = n + 1 := by cases size <;> exact ⟨_, rfl⟩
  have all := skipEntries_pastEnd (size := size.entries) (count := 0) h
  rw [Nat.zero_add, hn, pastEnd_iterate, ← hn] at all
  exact writeResult_ok all

end Sys2Proof.Machine

namespace Sys2Proof.Machine

open Codes

/-! ### What the NAL commands and CINIT leave unchanged (42_nal.md R89, R91, 40_bitreader.md R77) -/

/-- The bytes of RBUF that a completed EXTRACT writes lie below its RLEN. -/
theorem exec_extract_rbuf_past {s t : State} (h : exec .extract s = .next t) {a : Nat}
    (ha : t.rlen.toNat ≤ a) : t.rbuf.read a = s.rbuf.read a := by
  obtain ⟨bs, hl, -, rfl⟩ := execExtract_next h
  have out : (strip 0 bs).length ≤ s.larg1.toNat := (strip_length_le 0 bs).trans_eq hl
  have rlen : (strip 0 bs).length ≤ a := by rwa [zext32_toNat (by omega)] at ha
  exact (writeAll_read _ _ _ _).trans (if_neg (by omega))

/-- Settles O45: each command's frame, of which FINDSC's and CINIT's keep both buffers and EXTRACT's keeps
IBUF. -/
theorem nalCommandsAndCinitFrame : Obligations.NalCommandsAndCinitFrame := by
  refine fun s t => ⟨fun h => ⟨exec_findsc_frame h, fun b a => ?_⟩,
    fun h => ⟨exec_extract_frame h, fun a => ?_, fun a => exec_extract_rbuf_past h⟩, fun h => ?_⟩
  · rw [exec_findsc_frame h]
    cases b <;> rfl
  · rw [exec_extract_frame h]
    rfl
  · rw [exec_cinit_next h]
    exact ⟨rfl, fun b a => by cases b <;> rfl⟩

/-! ### De-escaping (30_encoding.md R68, 42_nal.md R91, R93) -/

/-- Two zeros already make the next `03` an emulation-prevention byte: more zeros say no more. -/
theorem strip_zeros_saturate (z : Nat) (bs : List Byte) : strip (z + 2) bs = strip 2 bs := by
  induction bs generalizing z with
  | nil => rfl
  | cons b bs ih =>
    have next : strip (if b = 0x00#8 then z + 2 + 1 else 0) bs
        = strip (if b = 0x00#8 then 2 + 1 else 0) bs := by
      split
      · exact (ih (z + 1)).trans (ih 1).symm
      · rfl
    simp [strip, next]

theorem strip_two_eq_strip_one {bs : List Byte} (h : ∀ rest, bs ≠ 0x03#8 :: rest) :
    strip 2 bs = strip 1 bs := by
  cases bs with
  | nil => rfl
  | cons b bs =>
    have kept : b ≠ 0x03#8 := fun hb => h bs (by rw [hb])
    have next : strip (if b = 0x00#8 then 3 else 0) bs = strip (if b = 0x00#8 then 2 else 0) bs := by
      rw [apply_ite (strip · bs), apply_ite (strip · bs), strip_zeros_saturate 1]
    simp [strip, kept, next]

theorem strip_one_eq_strip_zero {bs : List Byte} (h : ∀ rest, bs ≠ 0x00#8 :: 0x03#8 :: rest) :
    strip 1 bs = strip 0 bs := by
  cases bs with
  | nil => rfl
  | cons b bs =>
    by_cases hb : b = 0x00#8
    · subst hb
      have next := strip_two_eq_strip_one fun rest (hr : bs = _) => h rest (by rw [hr])
      simp [strip, next]
    · simp [strip, hb]

/-- The loop of EXTRACT, which counts zeros, removes what R68 says: the `03` of each `00 00 03`. -/
theorem strip_zero_eq_removeEmulation (bs : List Byte) : strip 0 bs = removeEmulation bs := by
  induction bs using removeEmulation.induct with
  | case1 rest ih => simp [strip, removeEmulation, ih]
  | case2 b rest h ih =>
    rw [removeEmulation.eq_2 _ _ h, ← ih]
    by_cases hb : b = 0x00#8
    · simp [strip, hb, strip_one_eq_strip_zero fun r hr => h r hb hr]
    · simp [strip, hb]
  | case3 => rfl

/-- Settles O41: EXTRACT's loop on the unit's bytes, whose output is written from index 0 on. -/
theorem extractRemovesEmulationBytes : Obligations.ExtractRemovesEmulationBytes := by
  intro s unit hl hu
  refine ⟨writeAll s.rbuf 0 (removeEmulation unit), fun a => ?_, ?_⟩
  · simp [writeAll_read]
  · have loop := deescape_eq s.ibuf unit s.larg0.toNat 0 0 s.rbuf hu
    rw [hl, Nat.zero_add, strip_zero_eq_removeEmulation] at loop
    rw [exec, execExtract, State.arg0Value, State.arg1Value, loop]
    simp only [nalHeader_writeAll]
    rfl

/-- A unit without the sequence `00 00 03` has no byte to remove (42_nal.md R93). -/
theorem removeEmulation_eq_self {bs : List Byte}
    (h : ∀ j < bs.length,
      ¬(bs[j]? = some 0x00#8 ∧ bs[j + 1]? = some 0x00#8 ∧ bs[j + 2]? = some 0x03#8)) :
    removeEmulation bs = bs := by
  induction bs using removeEmulation.induct with
  | case1 rest _ => exact absurd ⟨rfl, rfl, rfl⟩ (h 0 (Nat.succ_pos _))
  | case2 b rest hb ih =>
    rw [removeEmulation.eq_2 _ _ hb, ih fun j hj => h (j + 1) (Nat.succ_lt_succ hj)]
  | case3 => rfl

/-- Settles O42: the output is no longer than the unit, and is the unit where no byte is removed. -/
theorem extractCopiesAUnitWithoutTheSequence : Obligations.ExtractCopiesAUnitWithoutTheSequence := by
  intro s t unit hl hu h
  obtain ⟨rb, hrb, he⟩ := extractRemovesEmulationBytes s unit hl hu
  obtain rfl : _ = t := Host.Outcome.next.inj (he.symm.trans h)
  have shorter : (removeEmulation unit).length ≤ s.larg1.toNat := by
    rw [← strip_zero_eq_removeEmulation, ← hl]
    exact strip_length_le 0 unit
  refine ⟨?_, fun hno => ?_⟩
  · show (zext32 _).toNat ≤ _
    rwa [zext32_toNat (by omega)]
  · have same : removeEmulation unit = unit := removeEmulation_eq_self hno
    rw [same] at hrb ⊢
    refine ⟨?_, fun j hj => ?_⟩
    · show zext32 unit.length = s.larg1
      rw [hl, zext32, BitVec.ofNat_toNat, BitVec.setWidth_eq]
    · show rb.read j = _
      rw [hrb, if_pos hj, List.getElem?_eq_getElem hj]

/-! ### The start-code search (42_nal.md R88, R89) -/

/-- The run of zeros at `p` is measured wherever a written byte ends it. -/
theorem zeroRun_ends {m : Memory} {fuel p a : Nat} {b : Byte} (hp : p ≤ a) (ha : a < p + fuel)
    (hw : m.WrittenIn p a) (hb : m.read a = some b) (hb0 : b ≠ 0x00#8) :
    ∃ k, zeroRun m fuel p = .ok k ∧ p + k ≤ a := by
  induction fuel generalizing p with
  | zero => omega
  | succ fuel ih =>
    rcases Nat.eq_or_lt_of_le hp with rfl | hlt
    · exact ⟨0, by simp [zeroRun, engineRead_ok.2 hb, hb0], hp⟩
    · obtain ⟨c, hc⟩ := Option.isSome_iff_exists.1 (hw p hlt (Nat.le_refl p))
      by_cases hc0 : c = 0x00#8
      · obtain ⟨k, hk, hka⟩ := ih hlt (by omega) fun i hi hpi => hw i hi (by omega)
        exact ⟨k + 1, by simp [zeroRun, engineRead_ok.2 hc, hc0, hk], by omega⟩
      · exact ⟨0, by simp [zeroRun, engineRead_ok.2 hc, hc0], hp⟩

/-- Whether a run of zeros makes a start code is answered wherever the byte after it is written. -/
theorem endsStartCode_written {m : Memory} {il p k : Nat} (hw : (m.read (p + k)).isSome = true) :
    ∃ r, endsStartCode m il p k = .ok r := by
  cases he : endsStartCode m il p k with
  | ok r => exact ⟨r, rfl⟩
  | error f => simp [(endsStartCode_error he).2.1] at hw

theorem scanFrom_nonzero {m : Memory} {il fuel p : Nat} {b : Byte} (hp : p < il)
    (hb : m.read p = some b) (hb0 : b ≠ 0x00#8) :
    scanFrom m il (fuel + 1) p = scanFrom m il fuel (p + 1) := by
  simp [scanFrom, hp, engineRead_ok.2 hb, hb0]

theorem scanFrom_zeros {m : Memory} {il fuel p k : Nat} {r : Bool} (hp : p < il)
    (h0 : m.read p = some 0x00#8) (hk : zeroRun m (il - p) p = .ok k)
    (hr : endsStartCode m il p k = .ok r) :
    scanFrom m il (fuel + 1) p = if r = true then .ok (p, k + 1) else scanFrom m il fuel (p + k) := by
  cases r <;> simp [scanFrom, hp, engineRead_ok.2 h0, hk, hr]

/-- A start code with zeros before it is part of a longer one (30_encoding.md R67). -/
theorem isStartCode_zerosBefore {m : Memory} {il q p len : Nat} (hqp : q ≤ p)
    (hz : ∀ a, q ≤ a → a < p → m.read a = some 0x00#8) (h : IsStartCode m il p len) :
    IsStartCode m il q (p - q + len) := by
  obtain ⟨h3, hle, hzeros, hone⟩ := h
  refine ⟨by omega, by omega, fun i hi => ?_, ?_⟩
  · by_cases hip : q + i < p
    · exact hz _ (Nat.le_add_right q i) hip
    · rw [show q + i = p + (q + i - p) by omega]
      exact hzeros _ (by omega)
  · rw [show q + (p - q + len - 1) = p + (len - 1) by omega, hone]

/-- The zeros at a start code are the code's own. -/
theorem isStartCode_zeroRun {m : Memory} {il p len : Nat} (h : IsStartCode m il p len) :
    zeroRun m (il - p) p = .ok (len - 1) := by
  obtain ⟨h3, hle, hzeros, hone⟩ := h
  have written : m.WrittenIn p (p + (len - 1)) := fun a ha hpa => by
    rw [← Nat.add_sub_of_le hpa, hzeros _ (by omega)]
    rfl
  obtain ⟨k, hk, hka⟩ := zeroRun_ends (fuel := il - p) (by omega) (by omega) written hone (by decide)
  obtain ⟨-, -, hend⟩ := zeroRun_ok hk
  obtain ⟨b, hb, hb0⟩ := hend (by omega)
  have notFewer : ¬k < len - 1 := fun hlt => hb0 (Option.some.inj (hb.symm.trans (hzeros k hlt)))
  rw [hk, show k = len - 1 by omega]

/-- The scan at a start code answers it. -/
theorem scanFrom_startCode {m : Memory} {il fuel p len : Nat} (h : IsStartCode m il p len) :
    scanFrom m il (fuel + 1) p = .ok (p, len) := by
  have ⟨h3, hle, hzeros, hone⟩ := h
  obtain ⟨r, hr⟩ : ∃ r, endsStartCode m il p (len - 1) = .ok r :=
    endsStartCode_written (by rw [hone]; rfl)
  have ends : r = true := (endsStartCode_ok hr).2 ⟨by omega, by omega, hone⟩
  have zeroFirst : m.read p = some 0x00#8 := hzeros 0 (by omega)
  rw [scanFrom_zeros (by omega) zeroFirst (isStartCode_zeroRun h) hr, if_pos ends,
    Nat.sub_add_cancel (by omega)]

/-- Before the first start code the scan moves on, and not past it: a run of zeros that reached into the code
would make a longer one. -/
theorem scanFrom_moves {m : Memory} {il q p len : Nat} (fuel : Nat) (hqp : q < p)
    (hcode : IsStartCode m il p len) (hw : m.WrittenIn q (p + len))
    (hno : ∀ len', ¬IsStartCode m il q len') :
    ∃ q', q < q' ∧ q' ≤ p ∧ scanFrom m il (fuel + 1) q = scanFrom m il fuel q' := by
  have ⟨h3, hle, _, hone⟩ := hcode
  obtain ⟨b, hb⟩ := Option.isSome_iff_exists.1 (hw q (by omega) (Nat.le_refl q))
  by_cases hb0 : b = 0x00#8
  · subst hb0
    obtain ⟨k, hk, hka⟩ := zeroRun_ends (fuel := il - q) (a := p + (len - 1)) (by omega) (by omega)
      (fun a ha => hw a (by omega)) hone (by decide)
    obtain ⟨-, hrun, hend⟩ := zeroRun_ok hk
    obtain ⟨c, hc, hc0⟩ := hend (by omega)
    obtain ⟨r, hr⟩ := endsStartCode_written (il := il) (hw (q + k) (by omega) (by omega))
    have moved : k ≠ 0 := by
      rintro rfl
      exact hc0 (Option.some.inj (hc.symm.trans hb))
    have notPast : q + k ≤ p := by
      by_contra hp
      refine hno _ (isStartCode_zerosBefore hqp.le (fun a hqa hap => ?_) hcode)
      rw [← hrun (a - q) (by omega), Nat.add_sub_of_le hqa]
    have noCode : r ≠ true := fun hr1 => by
      obtain ⟨h2, hlt, h1⟩ := (endsStartCode_ok hr).1 hr1
      exact hno (k + 1) ⟨by omega, by omega, hrun, h1⟩
    exact ⟨q + k, by omega, notPast, by rw [scanFrom_zeros (by omega) hb hk hr, if_neg noCode]⟩
  · exact ⟨q + 1, by omega, hqp, scanFrom_nonzero (by omega) hb hb0⟩

/-- The scan from `q` answers the first start code at or after `q`. -/
theorem scanFrom_first {m : Memory} {il fuel q p len : Nat} (hqp : q ≤ p) (hf : il ≤ q + fuel)
    (hcode : IsStartCode m il p len) (hw : m.WrittenIn q (p + len))
    (hfirst : ∀ a < p, q ≤ a → ∀ len', ¬IsStartCode m il a len') :
    scanFrom m il fuel q = .ok (p, len) := by
  have ⟨h3, hle, _⟩ := hcode
  induction fuel generalizing q with
  | zero => omega
  | succ fuel ih =>
    rcases Nat.eq_or_lt_of_le hqp with rfl | hlt
    · exact scanFrom_startCode hcode
    · obtain ⟨q', hq, hq', he⟩ := scanFrom_moves fuel hlt hcode hw (hfirst q hlt (Nat.le_refl q))
      rw [he]
      exact ih hq' (by omega) (fun a ha hqa => hw a ha (by omega)) fun a ha hqa => hfirst a ha (by omega)

/-- Where every byte is written and no start code stands, the search answers `(il, 0)`. -/
theorem findStartCode_none {m : Memory} {lo il : Nat} (hw : m.WrittenIn lo il)
    (hno : ∀ q ≥ lo, ∀ len, ¬IsStartCode m il q len) : findStartCode m lo il = .ok (il, 0) := by
  cases hf : findStartCode m lo il with
  | error f =>
    obtain ⟨a, hlo, hlt, hn, -⟩ := scanFrom_error hf
    have := hw a hlt hlo
    simp [hn] at this
  | ok r =>
    rcases scanFrom_ok hf with ⟨hq, hcode⟩ | ⟨hp, hl⟩
    · exact absurd hcode (hno _ hq _)
    · rw [← hp, ← hl]

theorem exec_findsc_of_findStartCode {s : State} {p len : Nat}
    (h : findStartCode s.ibuf s.larg0.toNat s.lilen.toNat = .ok (p, len)) :
    exec .findsc s =
      .next { s with scpos := zext32 p, result := zext32 len, nosc := decide (len = 0) } := by
  rw [exec, execFindsc, State.arg0Value, State.ilenValue, h]

/-- Settles O39: the search answers the first start code where there is one, else `(il, 0)`; the bounds on
the length exclude no start code, since each ends at or before `il`. -/
theorem findscFindsTheFirstStartCode : Obligations.FindscFindsTheFirstStartCode := by
  refine fun s => ⟨fun p len hlo hcode hw hfirst => ?_, fun _ hw hno => ?_⟩
  · have found : findStartCode s.ibuf s.larg0.toNat s.lilen.toNat = .ok (p, len) :=
      scanFrom_first hlo (by omega) hcode hw fun q hq hlq len' h =>
        hfirst q hq hlq len' (Nat.le_trans (Nat.le_add_left _ _) h.2.1) h
    have positive : len ≠ 0 := by have := hcode.1; omega
    rw [exec_findsc_of_findStartCode found, decide_eq_false positive]
  · refine exec_findsc_of_findStartCode (findStartCode_none hw fun q hq len h => ?_)
    have ⟨h3, hle, _⟩ := h
    exact hno q (by omega) hq len (by omega) h

end Sys2Proof.Machine

namespace Sys2Proof.Machine

/-! ### What FINDSC signals (60_exceptions.md R98) -/

/-- A start code's length is less than `2^32`, since the code ends at or before LILEN. -/
theorem execFindsc_length_lt {s : State} {p len : Nat}
    (h : (s.arg0Value ≤ p ∧ Codes.IsStartCode s.ibuf s.ilenValue p len) ∨ (p = s.ilenValue ∧ len = 0)) :
    len < 2 ^ 32 := by
  have limit : s.ilenValue < 2 ^ 25 := s.lilen.isLt
  rcases h with ⟨-, -, hle, -⟩ | ⟨-, rfl⟩ <;> omega

theorem exec_findsc_nosc_iff {s t : State} (h : exec .findsc s = .next t) :
    t.nosc = true ↔ t.result = 0#32 := by
  obtain ⟨p, len, -, rfl, hcode⟩ := execFindsc_next h
  have value : (zext32 len).toNat = len := zext32_toNat (execFindsc_length_lt hcode)
  show decide (len = 0) = true ↔ zext32 len = 0#32
  rw [decide_eq_true_iff, ← BitVec.toNat_inj, value]
  rfl

/-- Settles O40: RESULT is the length found, which fits the register, so it is 0 exactly where NOSC says that
the search found none. -/
theorem findscSignalsNotFound : Obligations.FindscSignalsNotFound :=
  fun _ _ => exec_findsc_nosc_iff

/-! ### Who clears a flag (60_exceptions.md R103) -/

/-- Which command clears which flag. -/
theorem exec_clears {i : Instr} {s t : State} (h : exec i s = .next t) :
    ((s.trunc = true ∧ t.trunc = false) ∨ (s.malf = true ∧ t.malf = false) → i = .cinit ∨ i = .extract)
    ∧ (s.nosc = true → t.nosc = false → i = .findsc ∧ t.result ≠ 0#32) := by
  rcases command_kinds i with hi | rfl | rfl | rfl
  · obtain ⟨u, v, hu, rfl⟩ := exec_cursor_next hi h
    have nosc : u.nosc = s.nosc := by rw [hu.frame]
    simp +contextual [hu.trunc, hu.malf, nosc]
  · rw [exec_cinit_next h]
    simp +contextual
  · have signal := exec_findsc_nosc_iff h
    have frame := exec_findsc_frame h
    have trunc : t.trunc = s.trunc := by rw [frame]
    have malf : t.malf = s.malf := by rw [frame]
    simp +contextual [trunc, malf, ← signal]
  · rw [exec_extract_frame h]
    simp +contextual

/-- An issue attempt clears neither ILL nor OVR (20_memory.md R48). -/
theorem issue_keeps_hostFlags (s : State) (w : Word) :
    (s.ill = true → (s.issue w).ill = true) ∧ (s.ovr = true → (s.issue w).ovr = true) := by
  rcases issue_cases s w with ⟨-, h⟩ | ⟨-, r, -, h⟩ | ⟨-, i, -, h⟩ <;> rw [h] <;> simp

/-- Which register write clears which flag. -/
theorem hostWrite_clears (r : Reg) (v : Word) (s : State) :
    (s.ill = true → (hostWrite r v s.afterHead).ill = false → r = .status ∧ v.getLsbD 4 = true)
    ∧ (s.ovr = true → (hostWrite r v s.afterHead).ovr = false → r = .status ∧ v.getLsbD 5 = true) := by
  cases r
  case cmd =>
    obtain ⟨ill, ovr⟩ := issue_keeps_hostFlags s.afterHead v
    simp only [afterHead_ill, afterHead_ovr] at ill ovr
    simp +contextual [hostWrite, State.regWrite, ill, ovr]
  case status => simp +contextual [hostWrite, State.regWrite]
  all_goals simp +contextual [hostWrite, State.regWrite]

section
variable {s t : State} (h : step s = .next t) (hr : ¬s.ResetsNow)
include h hr

theorem step_clears_engineFlags :
    ((s.trunc = true ∧ t.trunc = false) ∨ (s.malf = true ∧ t.malf = false) →
      s.EngineRuns .cinit ∨ s.EngineRuns .extract)
    ∧ (s.nosc = true → t.nosc = false → s.EngineRuns .findsc ∧ t.result ≠ 0#32) := by
  rcases step_engineRegisters h hr with ⟨i, u, hi, hx, rfl⟩ | same
  · obtain ⟨cursor, nosc⟩ := exec_clears hx
    refine ⟨fun hc => ?_, fun h1 h0 => ?_⟩
    · rcases cursor hc with rfl | rfl
      · exact .inl hi
      · exact .inr hi
    · obtain ⟨rfl, hres⟩ := nosc h1 h0
      exact ⟨hi, hres⟩
  · rw [same.trunc, same.malf, same.nosc]
    simp +contextual

theorem step_clears_hostFlags :
    (s.ill = true → t.ill = false →
      ∃ v : Word, s.HostDoes (.write (s.address 0x04) 32 v) ∧ v.getLsbD 4 = true)
    ∧ (s.ovr = true → t.ovr = false →
      ∃ v : Word, s.HostDoes (.write (s.address 0x04) 32 v) ∧ v.getLsbD 5 = true) := by
  rcases step_hostRegisters h hr with ⟨r, v, hd, rfl⟩ | same
  · obtain ⟨ill, ovr⟩ := hostWrite_clears r v s
    refine ⟨fun h1 h0 => ?_, fun h1 h0 => ?_⟩
    · obtain ⟨rfl, hv⟩ := ill h1 h0
      exact ⟨v, hd, hv⟩
    · obtain ⟨rfl, hv⟩ := ovr h1 h0
      exact ⟨v, hd, hv⟩
  · rw [same.ill, same.ovr]
    simp +contextual

end

/-- Settles O49: in a step that is no reset the engine's flags are cleared at a completion, the host's at a
write to STATUS. -/
theorem flagsAreClearedOnlyByTheirEvents : Obligations.FlagsAreClearedOnlyByTheirEvents := by
  intro s t h
  by_cases hr : s.ResetsNow
  · exact ⟨fun _ => .inl hr, fun _ _ => .inl hr, fun _ _ => .inl hr, fun _ _ => .inl hr⟩
  · obtain ⟨cursor, nosc⟩ := step_clears_engineFlags h hr
    obtain ⟨ill, ovr⟩ := step_clears_hostFlags h hr
    exact ⟨fun hc => .inr (cursor hc), fun h1 h0 => .inr (nosc h1 h0), fun h1 h0 => .inr (ill h1 h0),
      fun h1 h0 => .inr (ovr h1 h0)⟩

/-! ### The host's classification (60_exceptions.md R99) -/

theorem statusRead_trunc (s : State) : (s.regRead .status).getLsbD 1 = s.trunc :=
  (statusWord_getLsbD s 1).trans (by simp)

theorem statusRead_malf (s : State) : (s.regRead .status).getLsbD 2 = s.malf :=
  (statusWord_getLsbD s 2).trans (by simp)

theorem statusRead_nosc (s : State) : (s.regRead .status).getLsbD 3 = s.nosc :=
  (statusWord_getLsbD s 3).trans (by simp)

theorem searchVerdict_eq_badStartCode (s : State) (required : Bool) :
    s.searchVerdict required = some .badStartCode ↔ required = true ∧ s.nosc = true := by
  rw [State.searchVerdict, ← Bool.and_eq_true]
  split <;> simp [*]

/-- Settles O59: bits 1 to 3 of the word read at STATUS are the flags the classification asks for. -/
theorem hostClassifiesFromTheFlags : Obligations.HostClassifiesFromTheFlags := by
  intro s
  rw [statusRead_malf, statusRead_trunc, statusRead_nosc]
  exact ⟨rfl, searchVerdict_eq_badStartCode s⟩

end Sys2Proof.Machine

namespace Sys2Proof.Machine

/-! ### Every command completes (70_reset_and_hazards.md R117) -/

/-- A command answers a next state unless it faults. -/
theorem exec_completes {i : Instr} {s : State} (h : ∀ f, exec i s ≠ .fault f) :
    ∃ t, exec i s = .next t := by
  cases hx : exec i s with
  | next t => exact ⟨t, rfl⟩
  | fault f => exact absurd hx (h f)
  | refused r => exact absurd hx (exec_not_refused i s r)

theorem exec_cursor_completes {i : Instr} {s : State} (hi : isCursorCommand i = true)
    (hw : s.CursorWritten) : ∃ t, exec i s = .next t := by
  refine exec_completes fun f hf => ?_
  obtain ⟨a, ha, -, unwritten⟩ := exec_cursor_fault hi hf
  have written := hw a ha
  simp [unwritten] at written

/-- SKIPSL counts at least one delta, since the running scale starts at 8, and at most one per entry (R82). -/
theorem exec_skipsl_result {size : ListSize} {s t : State} (h : exec (.skipsl size) s = .next t) :
    1 ≤ t.result.toNat ∧ t.result.toNat ≤ size.entries := by
  obtain ⟨count, u, deltas, rfl⟩ := writeResult_next (g := zext32) h
  have entries : size.entries ≠ 0 ∧ size.entries ≤ 64 := by cases size <;> decide
  obtain ⟨-, -, most, least⟩ := skipEntries_moves deltas
  have := least entries.1 (by decide)
  rw [zext32_toNat (by omega)]
  omega

/-- Settles O38: a written cursor buffer rules out the one fault of a cursor command; the frame and the bounds
are those of its `Moves`. -/
theorem cursorCommandsComplete : Obligations.CursorCommandsComplete := by
  intro s i hi _ ⟨hr, hc⟩ hw
  obtain ⟨t, ht⟩ := exec_cursor_completes hi hw
  obtain ⟨u, v, moves, rfl⟩ := exec_cursor_next hi ht
  obtain ⟨forward, inside⟩ := moves.bitpos hc hr
  refine ⟨_, ht, forward, inside, exec_cursor_frame hi ht, ?_⟩
  rintro size rfl
  exact exec_skipsl_result ht

/-- The unit of an EXTRACT that passes `Legal` lies inside the input (R61). -/
theorem legal_extract_unit {p : Params} {w : Word} {a0 a1 il : Nat} (h : legal p w a0 a1 il = .ok .extract) :
    a0 + a1 ≤ il := by
  have range := legal_inRange h
  simp only [inRange, Bool.and_eq_true, decide_eq_true_eq] at range
  omega

/-- A command that passes `Legal` completes where no byte it may read is unwritten (20_memory.md R44). -/
theorem exec_latched_completes {i : Instr} {s : State} (hl : s.latched = .ok i) (hc : s.CursorWritten)
    (hw : s.ibuf.WrittenIn s.larg0.toNat s.lilen.toNat) : ∃ t, exec i s = .next t := by
  refine exec_completes fun f hf => ?_
  obtain ⟨b, a, -, unwritten, place⟩ := (commandsFaultOnlyOnUnwrittenBytes s i).2 f hf
  suffices written : ((s.buffer b).read a).isSome = true by simp [unwritten] at written
  obtain ⟨-, rfl, ha⟩ | ⟨-, rfl, lo, hi⟩ | ⟨rfl, rfl, lo, hi⟩ := place
  · exact hc a ha
  · exact hw a hi lo
  · exact hw a (Nat.lt_of_lt_of_le hi (legal_extract_unit hl)) lo

/-- Settles O48: the latched command completes, and its completion clears PENDING. -/
theorem everyLatchedCommandCompletes : Obligations.EveryLatchedCommandCompletes := by
  intro s i _ runs hc hw
  have ⟨_, _, latched⟩ := runs
  obtain ⟨t, ht⟩ := exec_latched_completes (s := { s with turns := s.turns.tail }) latched hc hw
  exact ⟨t.complete, step_engineCompletes runs ht, complete_pending t⟩

/-! ### Reset (70_reset_and_hazards.md R107 to R109) -/

theorem resetWith_statusWord (p : Params) : (State.resetWith p).statusWord = 0#32 := by
  simp [State.statusWord, State.resetWith, flagBit]

/-- Settles O5: register by register; STATUS is the word of six clear flags. -/
theorem resetZeroesRegistersAndLatch : Obligations.ResetZeroesRegistersAndLatch := by
  refine fun p => ⟨fun r => ?_, rfl, rfl, rfl, rfl, rfl, rfl⟩
  cases r
  case status => exact resetWith_statusWord p
  all_goals rfl

/-- Settles O6: reset leaves both buffers empty. -/
theorem resetLeavesBuffersUnwritten : Obligations.ResetLeavesBuffersUnwritten := by
  intro p b a
  have unwritten : ((State.resetWith p).buffer b).read a = none := by cases b <;> rfl
  exact ⟨unwritten, engineRead_error.2 ⟨unwritten, rfl⟩⟩

/-- Settles O7: the step is the platform's reset. -/
theorem resetTurnAbandonsTheCommand : Obligations.ResetTurnAbandonsTheCommand := by
  intro s rest ht
  rw [step_resets (show s.ResetsNow by simp [State.ResetsNow, ht])]
  simp [resetTurn, ht]

/-! ### Whose turn it is (20_memory.md R49, R50) -/

/-- Settles O15: the turn is the host's, which has nothing to do. -/
theorem idleEngineWaits : Obligations.IdleEngineWaits := by
  intro s hp hh ht
  rw [step_hostMoves (.inr ⟨ht, hp⟩)]
  simp only [hostTurn, hh, ht, List.tail_nil]
  rw [← hh, ← ht]

/-- Settles O16: the host's turn is an issue attempt while BUSY = 1; the engine's runs the latch. -/
theorem bothOrdersOfIssueAndCompletion : Obligations.BothOrdersOfIssueAndCompletion := by
  intro s t i w rest hp hl hh hx
  constructor
  · have write : ({ s with turns := .host :: s.turns } : State).HostDoes (.write (s.address 0) 32 w) :=
      ⟨.inl rfl, by simp [hh]⟩
    have overrun := (cmdWriteIsAnIssueAttempt _ w write).trans (congrArg _ (if_pos hp))
    exact ⟨_, overrun, rfl, hp, rfl, by simp [hh], rfl, rfl⟩
  · exact engineStepRunsTheLatchedCommand.1 _ t i ⟨.inl rfl, hp, hl⟩ hx

end Sys2Proof.Machine
